-- ==== Sys2Proof/Word.lean ====
section
/-!
DEFINITION. The machine's only data type: a word of 32 bits (spec/00_scope.md section 5.2, R2 `WORD_BITS`).
`u(v)` of the spec is `v.toNat`, `s(v)` is `v.toInt`, and `w(n)` is `wrap n`.
-/

namespace Sys2Proof

/-- A word, "an 32 bits integer" (spec/10_state.md R22). -/
abbrev Word := BitVec 32

/-- `w(n)`: the word whose unsigned value is `n mod 2^32` (spec/00_scope.md section 5.2). -/
abbrev wrap (n : Int) : Word := BitVec.ofInt 32 n

end Sys2Proof
end

