-- ==== Sys2Proof/Syntax.lean ====
section
/-!
DEFINITION. The instructions as terms: one constructor per row of spec/opcode_table.json, 54 executable rows and the meta
row `annote` (spec/30_encoding.md R74), with the names of the registers (spec/10_state.md R11), of the ten environment
services (spec/48_trap_annote.md R211 to R220) and of the twelve colours (R225).
-/

namespace Sys2Proof

/-- The eight registers by name; their numbers are 0 to 7 in this order (spec/10_state.md R11). -/
inductive Reg where
  | pc | sp | mp | hp | rr | r5 | r6 | r7
deriving DecidableEq, Repr

/-- The ten services of `trap`, in the order of the source's list (spec/48_trap_annote.md R211 to R220). -/
inductive TrapService where
  | printInt
  | printChar
  | readInt
  | readChar
  | readCharSequence
  | openForReading
  | openForWriting
  | readCharFromFile
  | writeCharToFile
  | closeFile
deriving DecidableEq, Repr

/-- The colours `annote` may name (spec/48_trap_annote.md R225). -/
inductive Color where
  | black | blue | cyan | darkGray | gray | green | lightGray | magenta | orange | pink | red | yellow
deriving DecidableEq, Repr

/-- One constructor per row of spec/opcode_table.json. An inline operand is one whole word used as it stands
(spec/30_encoding.md R73): `a` is the first, `b` the second. A register operand stays the word that memory holds, because
a word outside 0 to 7 is an instruction that raises a fault of its own (spec/10_state.md R13). `annote` alone has no
words; its five arguments are those of the source text (spec/30_encoding.md R86). -/
inductive Instr where
  -- arithmetic and logic, spec/40_alu.md
  | add
  | and
  | div
  | mod
  | mul
  | or
  | sub
  | xor
  -- comparison, spec/41_compare.md
  | eq
  | ne
  | lt
  | gt
  | le
  | ge
  -- arithmetic and logic with one operand, spec/40_alu.md
  | neg
  | not
  -- in the order of the opcode map from here on (spec/30_encoding.md R74)
  | ajs (a : Word)
  | bra (a : Word)
  | brf (a : Word)
  | brt (a : Word)
  | bsr (a : Word)
  | halt
  | jsr
  | lda (a : Word)
  | ldma (a b : Word)
  | ldaa (a : Word)
  | ldc (a : Word)
  | ldl (a : Word)
  | ldml (a b : Word)
  | ldla (a : Word)
  | ldr (a : Word)
  | ldrr (a b : Word)
  | lds (a : Word)
  | ldms (a b : Word)
  | ldsa (a : Word)
  | link (a : Word)
  | nop
  | ret
  | sta (a : Word)
  | stma (a b : Word)
  | stl (a : Word)
  | stml (a b : Word)
  | str (a : Word)
  | sts (a : Word)
  | stms (a b : Word)
  | swp
  | swpr (a : Word)
  | swprr (a b : Word)
  | trap (a : Word)
  | unlink
  | ldh (a : Word)
  | ldmh (a b : Word)
  | sth
  | stmh (a : Word)
  | annote (reg : Reg) (low high : Word) (color : Color) (text : String)
deriving DecidableEq, Repr

end Sys2Proof
end

