-- ==== Sys2Proof/WellFormed.lean ====
section
/-!
DEFINITION. Which instruction terms have operands of the kind their instruction asks for (spec/30_encoding.md R73): a
register number is one of 0 to 7 (spec/10_state.md R13) and a size is not negative as a signed word. An ill-formed
instruction can stand in memory and be fetched; it raises the fault its rule names.
-/

namespace Sys2Proof

/-- The word is one of the eight register numbers (spec/10_state.md R13: compared as a whole word). -/
def isRegisterNumber (w : Word) : Bool := decide (w.toNat ≤ 7)

/-- The word is a size, a count of words that is not negative (spec/30_encoding.md R73). -/
def isSize (w : Word) : Bool := decide (0 ≤ w.toInt)

/-- Every operand is of the kind that spec/30_encoding.md R73 lists for the instruction. -/
def Instr.wellFormed : Instr → Bool
  | .add => true
  | .and => true
  | .div => true
  | .mod => true
  | .mul => true
  | .or => true
  | .sub => true
  | .xor => true
  | .eq => true
  | .ne => true
  | .lt => true
  | .gt => true
  | .le => true
  | .ge => true
  | .neg => true
  | .not => true
  | .ajs _ => true
  | .bra _ => true
  | .brf _ => true
  | .brt _ => true
  | .bsr _ => true
  | .halt => true
  | .jsr => true
  | .lda _ => true
  | .ldma _ b => isSize b
  | .ldaa _ => true
  | .ldc _ => true
  | .ldl _ => true
  | .ldml _ b => isSize b
  | .ldla _ => true
  | .ldr a => isRegisterNumber a
  | .ldrr a b => isRegisterNumber a && isRegisterNumber b
  | .lds _ => true
  | .ldms _ b => isSize b
  | .ldsa _ => true
  | .link _ => true
  | .nop => true
  | .ret => true
  | .sta _ => true
  | .stma _ b => isSize b
  | .stl _ => true
  | .stml _ b => isSize b
  | .str a => isRegisterNumber a
  | .sts _ => true
  | .stms _ b => isSize b
  | .swp => true
  | .swpr a => isRegisterNumber a
  | .swprr a b => isRegisterNumber a && isRegisterNumber b
  | .trap _ => true
  | .unlink => true
  | .ldh _ => true
  | .ldmh _ b => isSize b
  | .sth => true
  | .stmh a => isSize a
  | .annote _ _ _ _ _ => true

/-- `annote` is a meta instruction (spec/30_encoding.md R76): it produces no code. Every other row of the table is
executable. -/
def Instr.isMeta : Instr → Bool
  | .add => false
  | .and => false
  | .div => false
  | .mod => false
  | .mul => false
  | .or => false
  | .sub => false
  | .xor => false
  | .eq => false
  | .ne => false
  | .lt => false
  | .gt => false
  | .le => false
  | .ge => false
  | .neg => false
  | .not => false
  | .ajs _ => false
  | .bra _ => false
  | .brf _ => false
  | .brt _ => false
  | .bsr _ => false
  | .halt => false
  | .jsr => false
  | .lda _ => false
  | .ldma _ _ => false
  | .ldaa _ => false
  | .ldc _ => false
  | .ldl _ => false
  | .ldml _ _ => false
  | .ldla _ => false
  | .ldr _ => false
  | .ldrr _ _ => false
  | .lds _ => false
  | .ldms _ _ => false
  | .ldsa _ => false
  | .link _ => false
  | .nop => false
  | .ret => false
  | .sta _ => false
  | .stma _ _ => false
  | .stl _ => false
  | .stml _ _ => false
  | .str _ => false
  | .sts _ => false
  | .stms _ _ => false
  | .swp => false
  | .swpr _ => false
  | .swprr _ _ => false
  | .trap _ => false
  | .unlink => false
  | .ldh _ => false
  | .ldmh _ _ => false
  | .sth => false
  | .stmh _ => false
  | .annote _ _ _ _ _ => true

end Sys2Proof
end

