-- ==== Sys2Proof/Decode.lean ====
section
/-!
DEFINITION. Decoding and encoding (spec/30_encoding.md R70 to R78): the opcode map, the decoder over the words of an
instruction, the encoder, and the host's form of the decoder on one numeral.
-/

namespace Sys2Proof

/-- How an inline operand word is read (spec/30_encoding.md R73). -/
inductive OperandKind where
  | constant
  | displacement
  | size
  | branchOffset
  | register
  | service
deriving DecidableEq, Repr

/-- The three formats of spec/30_encoding.md R72, each with the instruction that its operand words make. -/
inductive Shape where
  | f0 (i : Instr)
  | f1 (make : Word → Instr)
  | f2 (make : Word → Word → Instr)

/-- One row of the opcode map (spec/30_encoding.md R74): the opcode word, the mnemonic, the format and the kinds of the
inline operands. -/
structure Row where
  code : Word
  mnemonic : String
  shape : Shape
  kinds : List OperandKind

/-- Part 1 of the opcode map of spec/30_encoding.md R74, in ascending code order. -/
def opcodeRows0 : List Row := [
  ⟨0x01#32, "add", .f0 .add, []⟩,
  ⟨0x02#32, "and", .f0 .and, []⟩,
  ⟨0x04#32, "div", .f0 .div, []⟩,
  ⟨0x07#32, "mod", .f0 .mod, []⟩,
  ⟨0x08#32, "mul", .f0 .mul, []⟩,
  ⟨0x09#32, "or", .f0 .or, []⟩,
  ⟨0x0c#32, "sub", .f0 .sub, []⟩,
  ⟨0x0d#32, "xor", .f0 .xor, []⟩,
  ⟨0x0e#32, "eq", .f0 .eq, []⟩,
  ⟨0x0f#32, "ne", .f0 .ne, []⟩,
  ⟨0x10#32, "lt", .f0 .lt, []⟩,
  ⟨0x11#32, "gt", .f0 .gt, []⟩,
  ⟨0x12#32, "le", .f0 .le, []⟩,
  ⟨0x13#32, "ge", .f0 .ge, []⟩]

/-- Part 2 of the opcode map of spec/30_encoding.md R74, in ascending code order. -/
def opcodeRows1 : List Row := [
  ⟨0x20#32, "neg", .f0 .neg, []⟩,
  ⟨0x21#32, "not", .f0 .not, []⟩,
  ⟨0x64#32, "ajs", .f1 .ajs, [.displacement]⟩,
  ⟨0x68#32, "bra", .f1 .bra, [.branchOffset]⟩,
  ⟨0x6c#32, "brf", .f1 .brf, [.branchOffset]⟩,
  ⟨0x6d#32, "brt", .f1 .brt, [.branchOffset]⟩,
  ⟨0x70#32, "bsr", .f1 .bsr, [.branchOffset]⟩,
  ⟨0x74#32, "halt", .f0 .halt, []⟩,
  ⟨0x78#32, "jsr", .f0 .jsr, []⟩,
  ⟨0x7c#32, "lda", .f1 .lda, [.displacement]⟩,
  ⟨0x7e#32, "ldma", .f2 .ldma, [.displacement, .size]⟩,
  ⟨0x80#32, "ldaa", .f1 .ldaa, [.displacement]⟩,
  ⟨0x84#32, "ldc", .f1 .ldc, [.constant]⟩,
  ⟨0x88#32, "ldl", .f1 .ldl, [.displacement]⟩]

/-- Part 3 of the opcode map of spec/30_encoding.md R74, in ascending code order. -/
def opcodeRows2 : List Row := [
  ⟨0x8a#32, "ldml", .f2 .ldml, [.displacement, .size]⟩,
  ⟨0x8c#32, "ldla", .f1 .ldla, [.displacement]⟩,
  ⟨0x90#32, "ldr", .f1 .ldr, [.register]⟩,
  ⟨0x94#32, "ldrr", .f2 .ldrr, [.register, .register]⟩,
  ⟨0x98#32, "lds", .f1 .lds, [.displacement]⟩,
  ⟨0x9a#32, "ldms", .f2 .ldms, [.displacement, .size]⟩,
  ⟨0x9c#32, "ldsa", .f1 .ldsa, [.displacement]⟩,
  ⟨0xa0#32, "link", .f1 .link, [.displacement]⟩,
  ⟨0xa4#32, "nop", .f0 .nop, []⟩,
  ⟨0xa8#32, "ret", .f0 .ret, []⟩,
  ⟨0xac#32, "sta", .f1 .sta, [.displacement]⟩,
  ⟨0xae#32, "stma", .f2 .stma, [.displacement, .size]⟩,
  ⟨0xb0#32, "stl", .f1 .stl, [.displacement]⟩,
  ⟨0xb2#32, "stml", .f2 .stml, [.displacement, .size]⟩]

/-- Part 4 of the opcode map of spec/30_encoding.md R74, in ascending code order. -/
def opcodeRows3 : List Row := [
  ⟨0xb4#32, "str", .f1 .str, [.register]⟩,
  ⟨0xb8#32, "sts", .f1 .sts, [.displacement]⟩,
  ⟨0xba#32, "stms", .f2 .stms, [.displacement, .size]⟩,
  ⟨0xbc#32, "swp", .f0 .swp, []⟩,
  ⟨0xc0#32, "swpr", .f1 .swpr, [.register]⟩,
  ⟨0xc4#32, "swprr", .f2 .swprr, [.register, .register]⟩,
  ⟨0xc8#32, "trap", .f1 .trap, [.service]⟩,
  ⟨0xcc#32, "unlink", .f0 .unlink, []⟩,
  ⟨0xd0#32, "ldh", .f1 .ldh, [.displacement]⟩,
  ⟨0xd4#32, "ldmh", .f2 .ldmh, [.displacement, .size]⟩,
  ⟨0xd6#32, "sth", .f0 .sth, []⟩,
  ⟨0xd8#32, "stmh", .f1 .stmh, [.size]⟩]

/-- The opcode map, 54 executable codes (spec/30_encoding.md R74). The code 0xff of `annote` is not in it (R76). -/
def opcodeTable : List Row := opcodeRows0 ++ opcodeRows1 ++ opcodeRows2 ++ opcodeRows3

/-- The row of an opcode word: the whole 32-bit word is compared with the code (spec/30_encoding.md R71, R77). -/
def lookupOpcode (op : Word) : Option Row := opcodeTable.find? (fun r => decide (r.code = op))

/-- The number of inline operands, `k` of spec/30_encoding.md R70. -/
def Shape.inlineOperands : Shape → Nat
  | .f0 _ => 0
  | .f1 _ => 1
  | .f2 _ => 2

/-- Why words are no instruction. -/
inductive DecodeError where
  /-- The opcode word is not one of the 54 executable codes (spec/30_encoding.md R75). -/
  | illegal (op : Word)
  /-- The words end before the opcode word and its inline operands do. -/
  | truncated
deriving DecidableEq, Repr

/-- The instruction at the head of a list of words, with the words after it (spec/30_encoding.md R77). -/
def decode : List Word → Except DecodeError (Instr × List Word)
  | [] => .error .truncated
  | op :: rest =>
    match lookupOpcode op with
    | none => .error (.illegal op)
    | some row =>
      match row.shape, rest with
      | .f0 i, rest => .ok (i, rest)
      | .f1 make, a :: rest => .ok (make a, rest)
      | .f2 make, a :: b :: rest => .ok (make a b, rest)
      | .f1 _, [] => .error .truncated
      | .f2 _, [] => .error .truncated
      | .f2 _, [_] => .error .truncated

/-- The words of an instruction (spec/30_encoding.md R70 to R74). `annote` produces no code (R76). -/
def encode : Instr → List Word
  | .add => [0x01#32]
  | .and => [0x02#32]
  | .div => [0x04#32]
  | .mod => [0x07#32]
  | .mul => [0x08#32]
  | .or => [0x09#32]
  | .sub => [0x0c#32]
  | .xor => [0x0d#32]
  | .eq => [0x0e#32]
  | .ne => [0x0f#32]
  | .lt => [0x10#32]
  | .gt => [0x11#32]
  | .le => [0x12#32]
  | .ge => [0x13#32]
  | .neg => [0x20#32]
  | .not => [0x21#32]
  | .ajs a => [0x64#32, a]
  | .bra a => [0x68#32, a]
  | .brf a => [0x6c#32, a]
  | .brt a => [0x6d#32, a]
  | .bsr a => [0x70#32, a]
  | .halt => [0x74#32]
  | .jsr => [0x78#32]
  | .lda a => [0x7c#32, a]
  | .ldma a b => [0x7e#32, a, b]
  | .ldaa a => [0x80#32, a]
  | .ldc a => [0x84#32, a]
  | .ldl a => [0x88#32, a]
  | .ldml a b => [0x8a#32, a, b]
  | .ldla a => [0x8c#32, a]
  | .ldr a => [0x90#32, a]
  | .ldrr a b => [0x94#32, a, b]
  | .lds a => [0x98#32, a]
  | .ldms a b => [0x9a#32, a, b]
  | .ldsa a => [0x9c#32, a]
  | .link a => [0xa0#32, a]
  | .nop => [0xa4#32]
  | .ret => [0xa8#32]
  | .sta a => [0xac#32, a]
  | .stma a b => [0xae#32, a, b]
  | .stl a => [0xb0#32, a]
  | .stml a b => [0xb2#32, a, b]
  | .str a => [0xb4#32, a]
  | .sts a => [0xb8#32, a]
  | .stms a b => [0xba#32, a, b]
  | .swp => [0xbc#32]
  | .swpr a => [0xc0#32, a]
  | .swprr a b => [0xc4#32, a, b]
  | .trap a => [0xc8#32, a]
  | .unlink => [0xcc#32]
  | .ldh a => [0xd0#32, a]
  | .ldmh a b => [0xd4#32, a, b]
  | .sth => [0xd6#32]
  | .stmh a => [0xd8#32, a]
  | .annote _ _ _ _ _ => []

/-- The three words of a numeral, bit 0 the least significant bit of the first word (spec/30_encoding.md R70: an
instruction is at most three words). -/
def wordsOfNumeral (w : Nat) : List Word :=
  [BitVec.ofNat 32 w, BitVec.ofNat 32 (w >>> 32), BitVec.ofNat 32 (w >>> 64)]

/-- The words of an instruction whose low `nbits` bits are those of `w` and whose other bits are 0. -/
def tableWords (nbits w : Nat) : List Word := wordsOfNumeral (w % 2 ^ nbits)

/-- The instruction the decoder reads from the numeral `w` of `nbits` bits, `none` where it refuses. -/
def decodeTableWord (nbits w : Nat) : Option Instr :=
  match decode (tableWords nbits w) with
  | .ok (i, _) => some i
  | .error _ => none

end Sys2Proof
end

