-- ==== Sys2Proof/Config.lean ====
section
/-!
DEFINITION. The parameters of the machine (spec/00_scope.md R2). A constant with a body is fixed or decided by the spec, or
is a reset value the model names. A constant without a body (`opaque`) is a value the spec leaves open: nothing can
evaluate it, so what is proved holds for every value of it.
-/

namespace Sys2Proof.Config

/-- `MEM_WORDS`, 2000 for version 2.2.0 (spec/00_scope.md R2, spec/10_state.md R22). -/
def memWords : Nat := 2000

/-- `RESET_PC` and `CODE_BASE` (spec/10_state.md R30). -/
def resetPC : Word := 0x0#32

/-- `STACK_BASE`, the reset value of SP. DESIGN CHOICE (log 2): OPEN in spec/10_state.md R31. -/
def stackBase : Word := 100#32

/-- `MP_INIT`, the reset value of MP. DESIGN CHOICE (log 2): OPEN in spec/10_state.md R32. -/
def mpInit : Word := 100#32

/-- `HEAP_BASE`, the reset value of HP. DESIGN CHOICE (log 2): OPEN in spec/10_state.md R33. -/
def heapBase : Word := 1500#32

/-- The reset value of RR, R5, R6 and R7. DESIGN CHOICE (log 1): unspecified in spec/10_state.md R34. -/
def scratchInit : Word := 0#32

/-- The word False, as a comparison writes it and as `brf` tests it (spec/41_compare.md R120). -/
def falseWord : Word := 0x00000000#32

/-- `TRUE_WORD`, the word a true comparison writes (spec/41_compare.md R120 after spec/90_conflicts.md C1). -/
def trueWord : Word := 0xFFFFFFFF#32

/-- `DIVMOD.quot`, the integer quotient rounded toward zero (spec/40_alu.md R103, decision D13). -/
def quot (x y : Int) : Int := Int.tdiv x y

/-- `PC_READ_ADVANCED`, OPEN (spec/46_register.md R195, log 7): whether a register instruction that reads register 0 gets the
address of the next instruction or its own. -/
opaque pcReadAdvanced : Bool

/-- `TRAP_CODE` at the operand words other than 0, OPEN (spec/48_trap_annote.md R210, log 8). -/
opaque trapCodeOther : Word → Option TrapService

/-- The word that address `a` holds before anything is written there: unspecified, any value (spec/10_state.md R35, U5 of
spec/93_implementation_defined.md, log 3). -/
opaque initialWord (a : Nat) : Word

/-- The user's answer to the `k`-th input draw when an integer is asked for: any word (spec/48_trap_annote.md R213,
log 13). -/
opaque inputInt (k : Nat) : Word

/-- The user's answer to the `k`-th input draw when a character is asked for: any word, which covers malformed input (U29 of
spec/93_implementation_defined.md, spec/48_trap_annote.md R214, log 13). -/
opaque inputChar (k : Nat) : Word

/-- The words of the user's answer to the `k`-th input draw when a character sequence is asked for, first character first:
any words (spec/48_trap_annote.md R215, log 13). -/
opaque inputSequence (k : Nat) : List Word

/-- The two layouts of a character sequence on the stack that spec/48_trap_annote.md R215 names. -/
inductive SequenceLayout where
  /-- The first character lies deepest and the terminating word 0 on top. -/
  | terminatorOnTop
  /-- The terminating word 0 lies deepest and the first character on top. -/
  | firstOnTop
deriving DecidableEq, Repr

/-- What the machine makes of service 5, decided: it refuses it (spec/60_exceptions.md R231, decision D36 of
spec/92_eei_decisions.md, U28 of spec/93_implementation_defined.md). A layout here is the "further configuration choice" of
spec/48_trap_annote.md R215 (log 14). -/
def sequenceLayout : Option SequenceLayout := none

/-- Whether the machine implements service 8, decided: it refuses it (spec/60_exceptions.md R231, decision D36, U28). `true`
is the model "that does implement it" of spec/48_trap_annote.md R218 (log 14). -/
def readsFiles : Bool := false

/-- The answer to the `k`-th input draw when a character is read from a file: a character, or whatever the environment gives
at the end of the file, hence any word (spec/48_trap_annote.md R218). -/
opaque fileInput (k : Nat) : Word

end Sys2Proof.Config
end

