-- ==== Sys2Proof/Machine/State.lean ====
section
/-!
DEFINITION. The whole state of the machine (spec/10_state.md): eight registers, one memory, the run status, and the
environment that `trap` talks to; the reasons a step can stop; the machine after reset.
-/

namespace Sys2Proof.Machine

/-- What an access to memory was for, the information that spec/60_exceptions.md R231 gives with `MemoryRange`. -/
inductive Access where
  | fetch
  | read
  | write
deriving DecidableEq, Repr

/-- The cases the source's text is too contradictory or too incomplete to execute (spec/60_exceptions.md R231, kind
`Unspecified`). -/
inductive UnspecifiedCase where
  /-- `swpr` naming register 1 (spec/46_register.md R197). -/
  | swprSP
  /-- A `trap` that selects one of the services 5 to 10 (spec/48_trap_annote.md R215 to R220). -/
  | service (svc : TrapService)
deriving DecidableEq, Repr

/-- The kinds of fault, the complete list of spec/60_exceptions.md R231. Each is safe: the machine stops with the state it
had before the instruction, where the interpreter may go on. -/
inductive Fault where
  /-- Raised by every instruction at its fetch and by every access to an address of 2000 or more
  (spec/20_memory.md R41). Safe. -/
  | memoryRange (access : Access) (address : Word)
  /-- Raised by the decoding of an opcode word that is no executable code (spec/30_encoding.md R75). Safe. -/
  | illegalInstruction (word : Word)
  /-- Raised by `ldr`, `ldrr`, `str`, `swpr`, `swprr` for an operand outside 0 to 7 (spec/10_state.md R13). Safe. -/
  | registerNumber (operand : Word)
  /-- Raised by the eight multi-word instructions for a negative size (spec/30_encoding.md R73). Safe. -/
  | operandRange (operand : Word)
  /-- Raised by `div` and `mod` for the divisor 0 (spec/40_alu.md R103, R104). Safe. -/
  | divideByZero
  /-- Raised by `trap` for an operand that selects no service (spec/48_trap_annote.md R221). Safe. -/
  | trapCode (operand : Word)
  /-- Raised by `swpr` with register 1 and by services 5 to 10 of `trap` (spec/60_exceptions.md R231). Safe. -/
  | unspecified (which : UnspecifiedCase)
deriving DecidableEq, Repr

/-- Why a step has no meaning in the model. -/
inductive Refusal where
  /-- An instruction without a meaning, raised by an arm of `exec` alone. Safe. No arm raises it. -/
  | notModelled (mnemonic : String)
  /-- Raised by `step` when it fetches a word that nothing has written (spec/70_reset_and_hazards.md R261: "it refuses or
  faults", log 4). Safe. -/
  | fetchUnwritten (address : Word)
deriving DecidableEq, Repr

/-- Why a fetch gives no instruction. -/
inductive Stop where
  | fault (f : Fault)
  | refused (r : Refusal)
deriving DecidableEq, Repr

/-- The run status (spec/10_state.md R25). -/
inductive RunStatus where
  | running
  | halted
  | faulted (f : Fault)
deriving DecidableEq, Repr

/-- One event of the output stream (spec/48_trap_annote.md R211, R212). -/
inductive OutputEvent where
  | printInt (n : Int)
  | printChar (code : Nat)
deriving DecidableEq, Repr

/-- The words of memory that have been written, as (word address, word) cells. The unit is the whole word because the
machine has no smaller one (spec/20_memory.md R42, log 5). -/
abbrev Memory := List (Nat × Word)

/-- The one form a memory has: addresses strictly rising, each the address of a word that exists
(spec/20_memory.md R40). -/
abbrev Memory.wf (m : Memory) : Prop :=
  m.Pairwise (fun x y => x.1 < y.1) ∧ ∀ c ∈ m, c.1 < Config.memWords

/-- The state of the machine (spec/10_state.md R10 to R26). -/
structure State where
  /-- x[0], the programcounter (R14). -/
  pc : Word
  /-- x[1], the stackpointer: the address of the topmost occupied stack word (R17). -/
  sp : Word
  /-- x[2], the markpointer (R18). -/
  mp : Word
  /-- x[3], the heappointer: the next free address of the heap (R19). -/
  hp : Word
  /-- x[4], the return register (R20). -/
  rr : Word
  /-- x[5], a scratch register (R21). -/
  r5 : Word
  /-- x[6], a scratch register (R21). -/
  r6 : Word
  /-- x[7], a scratch register (R21). -/
  r7 : Word
  /-- The memory M (R22). -/
  mem : Memory
  /-- The run status (R25). -/
  status : RunStatus
  /-- The output stream, oldest event first (R26). -/
  output : List OutputEvent
  /-- The file pointers of the open files (R26). No service that is executed opens one (R216, R217). -/
  openFiles : List Word
  /-- The model's own field (log 13): how many answers have been drawn from the user, which numbers the free values of
  `Config.inputInt`, `inputChar`, `inputSequence` and `fileInput` (R213 to R215, R218). -/
  inputsDrawn : Nat
deriving DecidableEq, Repr

/-- The machine after reset, before a program is loaded (spec/10_state.md R30 to R36). SP, MP, HP, RR, R5, R6 and R7 hold
values the model names (log 1, log 2). -/
def State.reset : State where
  pc := Config.resetPC
  sp := Config.stackBase
  mp := Config.mpInit
  hp := Config.heapBase
  rr := Config.scratchInit
  r5 := Config.scratchInit
  r6 := Config.scratchInit
  r7 := Config.scratchInit
  mem := []
  status := .running
  output := []
  openFiles := []
  inputsDrawn := 0

end Sys2Proof.Machine
end

