-- ==== Sys2Proof/Machine/Ops.lean ====
section
/-!
DEFINITION. The named operations over memory, registers and run status that every meaning is written with
(spec/00_scope.md section 5.3, spec/20_memory.md, spec/60_exceptions.md R231), the fetch (spec/30_encoding.md R77), and the
movements of words that several instructions share.
-/

namespace Sys2Proof.Machine

/-- What an instruction's rule answers: the next state, or the fault it raises. -/
abbrev Result (α : Type) := Except Fault α

-- Memory as a list of cells.

/-- The word written last at address `a`, if any was. -/
def Memory.lookup : Memory → Nat → Option Word
  | [], _ => none
  | (b, v) :: m, a => if b = a then some v else Memory.lookup m a

/-- Writes the word `v` at address `a`, keeping the addresses in rising order. -/
def Memory.insert : Memory → Nat → Word → Memory
  | [], a, v => [(a, v)]
  | (b, u) :: m, a, v =>
    if a < b then (a, v) :: (b, u) :: m
    else if a = b then (a, v) :: m
    else (b, u) :: Memory.insert m a v

/-- Writes the words `vs` at consecutive addresses from `a` up. -/
def Memory.insertMany : Memory → Nat → List Word → Memory
  | m, _, [] => m
  | m, a, v :: vs => Memory.insertMany (Memory.insert m a v) (a + 1) vs

/-- The word at address `a`: the word written last, or the unspecified word that was there at the start
(spec/20_memory.md R46, spec/10_state.md R35; log 3). -/
def State.wordAt (s : State) (a : Nat) : Word := (Memory.lookup s.mem a).getD (Config.initialWord a)

/-- An address of a word that exists (spec/20_memory.md R41). -/
abbrev ValidAddr (a : Word) : Prop := a.toNat < Config.memWords

-- Faults (spec/60_exceptions.md R231).

/-- `raise Fault(kind)`. The result holds no state: none of the rule's writes takes effect (spec/00_scope.md R4). -/
def raise {α : Type} (f : Fault) : Result α := .error f

/-- What a raised fault does to the machine: the status becomes FAULTED(kind) and every register, memory word and output
event keeps its value (spec/00_scope.md R4, spec/60_exceptions.md R231). There is no way back but a new reset (R235). -/
def State.enterFaulted (s : State) (f : Fault) : State := { s with status := .faulted f }

/-- The outcome of an instruction's rule. -/
def finish (r : Result State) : Host.Outcome State Fault Refusal :=
  match r with
  | .ok t => .next t
  | .error f => .fault f

/-- What the machine makes of an instruction's outcome: a fault raised in state `s` leaves `s` with the status
FAULTED(kind) (spec/10_state.md R25, log 6). -/
def settle (s : State) (o : Host.Outcome State Fault Refusal) : Host.Outcome State Fault Refusal :=
  match o with
  | .next t => .next t
  | .fault f => .next (s.enterFaulted f)
  | .refused r => .refused r

/-- A HALTED machine fetches nothing and changes nothing (spec/10_state.md R25, spec/60_exceptions.md R241). -/
def haltedOutcome (s : State) : Host.Outcome State Fault Refusal := .next s

/-- A FAULTED machine fetches nothing: it stays stopped with its fault (spec/10_state.md R25, log 6). -/
def faultedOutcome (f : Fault) : Host.Outcome State Fault Refusal := .fault f

-- Access to memory (spec/20_memory.md R41).

/-- `MemRead(a, 1)`. -/
def State.readWord (s : State) (a : Word) : Result Word :=
  if ValidAddr a then .ok (s.wordAt a.toNat) else raise (.memoryRange .read a)

/-- `MemRead(a, n)`: the words at `a`, `a + 1`, ..., lowest address first, each address modulo 2^32. -/
def State.readWords (s : State) : Nat → Word → Result (List Word)
  | 0, _ => .ok []
  | n + 1, a => do
    let v ← s.readWord a
    let vs ← State.readWords s n (a + 1#32)
    .ok (v :: vs)

/-- `MemWrite(a, 1, v)`. -/
def State.writeWord (s : State) (a v : Word) : Result State :=
  if ValidAddr a then .ok { s with mem := s.mem.insert a.toNat v } else raise (.memoryRange .write a)

/-- `MemWrite(a, n, vs)`: the words of `vs` go to `a`, `a + 1`, ..., lowest address first, each address modulo 2^32. -/
def State.writeWords (s : State) (a : Word) : List Word → Result State
  | [] => .ok s
  | v :: vs => do
    let t ← s.writeWord a v
    State.writeWords t (a + 1#32) vs

-- Registers (spec/10_state.md R10 to R13).

/-- Register `r` of the state, the programcounter between instructions included. -/
def State.reg (s : State) : Reg → Word
  | .pc => s.pc
  | .sp => s.sp
  | .mp => s.mp
  | .hp => s.hp
  | .rr => s.rr
  | .r5 => s.r5
  | .r6 => s.r6
  | .r7 => s.r7

/-- Writes register `r`; none is hardwired and none is read-only (spec/10_state.md R12). -/
def State.setReg (s : State) (r : Reg) (v : Word) : State :=
  match r with
  | .pc => { s with pc := v }
  | .sp => { s with sp := v }
  | .mp => { s with mp := v }
  | .hp => { s with hp := v }
  | .rr => { s with rr := v }
  | .r5 => { s with r5 := v }
  | .r6 => { s with r6 := v }
  | .r7 => { s with r7 := v }

/-- The address after an instruction of `len` words at PC: `next` of spec/00_scope.md section 5.3, R5. -/
def State.following (s : State) (len : Word) : Word := s.pc + len

/-- The state after an instruction of `len` words that writes nothing but PC (spec/00_scope.md R5). -/
def State.advance (s : State) (len : Word) : State := { s with pc := s.following len }

-- Movements shared by several instructions.

/-- The two-operand template of spec/40_alu.md R100 and spec/41_compare.md R120: the deeper word is the left operand, the
top of the stack the right one, and the result replaces the deeper word. -/
def binaryOp (f : Word → Word → Result Word) (s : State) : Result State := do
  let v2 ← s.readWord s.sp
  let v1 ← s.readWord (s.sp - 1#32)
  let r ← f v1 v2
  let t ← s.writeWord (s.sp - 1#32) r
  .ok { t with sp := s.sp - 1#32, pc := s.following 1#32 }

/-- The one-operand template: the top of the stack is replaced, SP stays (spec/40_alu.md R106, R107). -/
def replaceTop (len : Word) (f : Word → Result Word) (s : State) : Result State := do
  let v ← s.readWord s.sp
  let r ← f v
  let t ← s.writeWord s.sp r
  .ok { t with pc := s.following len }

/-- `push(v)` by an instruction of `len` words (spec/00_scope.md section 5.3). -/
def pushWord (len v : Word) (s : State) : Result State := do
  let t ← s.writeWord (s.sp + 1#32) v
  .ok { t with sp := s.sp + 1#32, pc := s.following len }

/-- Pops one word and hands it, with the state whose SP and PC have moved, to `use`. -/
def popWord (len : Word) (use : Word → State → State) (s : State) : Result State := do
  let v ← s.readWord s.sp
  .ok (use v { s with sp := s.sp - 1#32, pc := s.following len })

/-- Pops one word and stores it at address `dst` (spec/45_store.md R181, R185). -/
def storeTop (len dst : Word) (s : State) : Result State := do
  let v ← s.readWord s.sp
  let t ← s.writeWord dst v
  .ok { t with sp := s.sp - 1#32, pc := s.following len }

/-- Moves `n` words from `src` up to `dst` up, every source word read before any destination word is written
(spec/20_memory.md R45), and leaves SP at `sp'`. -/
def moveBlock (len : Word) (n : Nat) (src dst sp' : Word) (s : State) : Result State := do
  let vs ← s.readWords n src
  let t ← s.writeWords dst vs
  .ok { t with sp := sp', pc := s.following len }

-- Fetching (spec/30_encoding.md R77).

/-- Fetches the word at `a`: an address that does not exist faults (spec/20_memory.md R41), a word that nothing has written
is refused (spec/70_reset_and_hazards.md R261). -/
def State.fetchWord (s : State) (a : Word) : Except Stop Word :=
  if ValidAddr a then
    match Memory.lookup s.mem a.toNat with
    | some v => .ok v
    | none => .error (.refused (.fetchUnwritten a))
  else .error (.fault (.memoryRange .fetch a))

/-- Fetches and decodes the instruction at PC: the opcode word, then its inline operands, `a` before `b`
(spec/30_encoding.md R77, spec/60_exceptions.md R233 steps 1 to 3). -/
def State.fetchInstr (s : State) : Except Stop Instr := do
  let op ← s.fetchWord s.pc
  match lookupOpcode op with
  | none => .error (.fault (.illegalInstruction op))
  | some row =>
    match row.shape with
    | .f0 i => .ok i
    | .f1 make => do
      let a ← s.fetchWord (s.pc + 1#32)
      .ok (make a)
    | .f2 make => do
      let a ← s.fetchWord (s.pc + 1#32)
      let b ← s.fetchWord (s.pc + 2#32)
      .ok (make a b)

-- Placing words for the next fetch.

/-- Where the next instruction's words can be placed: PC, or address 0 where fewer than three words exist from PC up. -/
def State.placeForCode (s : State) : Word :=
  if s.pc.toNat + 3 ≤ Config.memWords then s.pc else Config.resetPC

/-- The state with the words `ws` stored where the next step fetches, and running. -/
def State.withCode (s : State) (ws : List Word) : State :=
  { s with
    pc := s.placeForCode
    mem := s.mem.insertMany s.placeForCode.toNat ws
    status := .running }

end Sys2Proof.Machine
end

