-- ==== Sys2Proof/Machine/Operands.lean ====
section
/-!
DEFINITION. Every form of inline operand (spec/30_encoding.md R73) and of effective address (spec/44_load.md R170), and what
the register instructions read as register 0 (spec/46_register.md R195).
-/

namespace Sys2Proof.Machine

/-- The register of a register number, compared as a whole word (spec/10_state.md R11, R13). -/
def regOfNumber (w : Word) : Option Reg :=
  match w.toNat with
  | 0 => some .pc
  | 1 => some .sp
  | 2 => some .mp
  | 3 => some .hp
  | 4 => some .rr
  | 5 => some .r5
  | 6 => some .r6
  | 7 => some .r7
  | _ => none

/-- The number of a register (spec/10_state.md R11). -/
def registerNumber : Reg → Word
  | .pc => 0#32
  | .sp => 1#32
  | .mp => 2#32
  | .hp => 3#32
  | .rr => 4#32
  | .r5 => 5#32
  | .r6 => 6#32
  | .r7 => 7#32

/-- A register operand; a word outside 0 to 7 raises `Fault(RegisterNumber)` (spec/10_state.md R13). -/
def regOperand (w : Word) : Result Reg :=
  match regOfNumber w with
  | some r => .ok r
  | none => raise (.registerNumber w)

/-- A size operand, a count of words; a negative one raises `Fault(OperandRange)` (spec/30_encoding.md R73). -/
def sizeOperand (w : Word) : Result Nat :=
  if w.toInt < 0 then raise (.operandRange w) else .ok w.toNat

/-- `TRAP_CODE`: operand 0 is service 1; the other operand words are OPEN (spec/48_trap_annote.md R210). -/
def trapCode (w : Word) : Option TrapService :=
  if w = 0#32 then some .printInt else Config.trapCodeOther w

/-- A service operand; a word without a service raises `Fault(TrapCode)` (spec/48_trap_annote.md R221). -/
def serviceOperand (w : Word) : Result TrapService :=
  match trapCode w with
  | some svc => .ok svc
  | none => raise (.trapCode w)

/-- A base word plus a signed displacement, modulo 2^32 (spec/20_memory.md R49). -/
def displaced (base a : Word) : Word := base + a

/-- The target of `bra`, `brf`, `brt` and `bsr`: the offset counts from the following instruction, two words on
(spec/42_control.md R139). -/
def branchTarget (s : State) (a : Word) : Word := s.pc + 2#32 + a

/-- `PCREAD`: what a register instruction of `len` words reads as register 0 (spec/46_register.md R195). -/
def pcRead (s : State) (len : Word) : Word :=
  if Config.pcReadAdvanced then s.following len else s.pc

/-- `rd(r)` in an instruction of `len` words; all reads are of the pre-state (spec/46_register.md R195). -/
def readReg (s : State) (len : Word) (r : Reg) : Word :=
  match r with
  | .pc => pcRead s len
  | .sp => s.sp
  | .mp => s.mp
  | .hp => s.hp
  | .rr => s.rr
  | .r5 => s.r5
  | .r6 => s.r6
  | .r7 => s.r7

end Sys2Proof.Machine
end

