-- ==== Sys2Proof/Machine/Alu.lean ====
section
/-!
DEFINITION. Arithmetic and logic (spec/40_alu.md R100 to R111).
-/

namespace Sys2Proof.Machine

/-- `f` of R103: the quotient, wrapped to a word; the divisor 0 raises `Fault(DivideByZero)`. -/
def divWords (v1 v2 : Word) : Result Word :=
  if v2 = 0#32 then raise .divideByZero else .ok (wrap (Config.quot v1.toInt v2.toInt))

/-- `f` of R104: the dividend less the same quotient times the divisor. -/
def modWords (v1 v2 : Word) : Result Word :=
  if v2 = 0#32 then raise .divideByZero
  else .ok (wrap (v1.toInt - Config.quot v1.toInt v2.toInt * v2.toInt))

/-- `add` (spec/40_alu.md R101). -/
def execAdd (s : State) : Host.Outcome State Fault Refusal := finish (binaryOp (fun v1 v2 => .ok (v1 + v2)) s)

/-- `and` (spec/40_alu.md R102). -/
def execAnd (s : State) : Host.Outcome State Fault Refusal := finish (binaryOp (fun v1 v2 => .ok (v1 &&& v2)) s)

/-- `div` (spec/40_alu.md R103). -/
def execDiv (s : State) : Host.Outcome State Fault Refusal := finish (binaryOp divWords s)

/-- `mod` (spec/40_alu.md R104). -/
def execMod (s : State) : Host.Outcome State Fault Refusal := finish (binaryOp modWords s)

/-- `mul` (spec/40_alu.md R105). -/
def execMul (s : State) : Host.Outcome State Fault Refusal := finish (binaryOp (fun v1 v2 => .ok (v1 * v2)) s)

/-- `or` (spec/40_alu.md R108). -/
def execOr (s : State) : Host.Outcome State Fault Refusal := finish (binaryOp (fun v1 v2 => .ok (v1 ||| v2)) s)

/-- `sub` (spec/40_alu.md R109). -/
def execSub (s : State) : Host.Outcome State Fault Refusal := finish (binaryOp (fun v1 v2 => .ok (v1 - v2)) s)

/-- `xor` (spec/40_alu.md R110). -/
def execXor (s : State) : Host.Outcome State Fault Refusal := finish (binaryOp (fun v1 v2 => .ok (v1 ^^^ v2)) s)

/-- `neg` (spec/40_alu.md R106). -/
def execNeg (s : State) : Host.Outcome State Fault Refusal := finish (replaceTop 1#32 (fun v => .ok (0#32 - v)) s)

/-- `not` (spec/40_alu.md R107). -/
def execNot (s : State) : Host.Outcome State Fault Refusal := finish (replaceTop 1#32 (fun v => .ok (v ^^^ 0xFFFFFFFF#32)) s)

end Sys2Proof.Machine
end

