-- ==== Sys2Proof/Machine/Flags.lean ====
section
/-!
DEFINITION. The machine has no flags and no condition codes (spec/10_state.md R27): a comparison leaves a word on the stack
and a conditional branch pops one. This file is the encoding of truth in a word (spec/41_compare.md R120).
-/

namespace Sys2Proof.Machine

/-- The word a comparison leaves (spec/41_compare.md R120). -/
def truthWord (b : Bool) : Word := if b then Config.trueWord else Config.falseWord

/-- The test of `brf` and `brt`: any word other than 0 counts as True (spec/42_control.md R131, R132). -/
def countsAsTrue (w : Word) : Bool := decide (w ≠ Config.falseWord)

end Sys2Proof.Machine
end

