-- ==== Sys2Proof/Machine/Compare.lean ====
section
/-!
DEFINITION. The comparisons (spec/41_compare.md R120 to R127). The order is that of the signed reading (R127).
-/

namespace Sys2Proof.Machine

/-- The template of R120 with the relation `rel` on the deeper word and the top of the stack. -/
def compareOp (rel : Word → Word → Bool) (s : State) : Result State :=
  binaryOp (fun v1 v2 => .ok (truthWord (rel v1 v2))) s

/-- `eq` (spec/41_compare.md R121). -/
def execEq (s : State) : Host.Outcome State Fault Refusal := finish (compareOp (fun v1 v2 => decide (v1 = v2)) s)

/-- `ne` (spec/41_compare.md R126). -/
def execNe (s : State) : Host.Outcome State Fault Refusal := finish (compareOp (fun v1 v2 => decide (v1 ≠ v2)) s)

/-- `lt` (spec/41_compare.md R125). -/
def execLt (s : State) : Host.Outcome State Fault Refusal :=
  finish (compareOp (fun v1 v2 => decide (v1.toInt < v2.toInt)) s)

/-- `gt` (spec/41_compare.md R123). -/
def execGt (s : State) : Host.Outcome State Fault Refusal :=
  finish (compareOp (fun v1 v2 => decide (v2.toInt < v1.toInt)) s)

/-- `le` (spec/41_compare.md R124). -/
def execLe (s : State) : Host.Outcome State Fault Refusal :=
  finish (compareOp (fun v1 v2 => decide (v1.toInt ≤ v2.toInt)) s)

/-- `ge` (spec/41_compare.md R122). -/
def execGe (s : State) : Host.Outcome State Fault Refusal :=
  finish (compareOp (fun v1 v2 => decide (v2.toInt ≤ v1.toInt)) s)

end Sys2Proof.Machine
end

