-- ==== Sys2Proof/Machine/Control.lean ====
section
/-!
DEFINITION. Control transfer, `halt` and `nop` (spec/42_control.md R130 to R139). There are no delay slots (R139).
-/

namespace Sys2Proof.Machine

/-- `bra` (spec/42_control.md R130). -/
def execBra (a : Word) (s : State) : Host.Outcome State Fault Refusal := finish (.ok { s with pc := branchTarget s a })

/-- `brf` (spec/42_control.md R131): the operand is popped whether or not the branch is taken. -/
def execBrf (a : Word) (s : State) : Host.Outcome State Fault Refusal :=
  finish (popWord 2#32 (fun c t => if countsAsTrue c then t else { t with pc := branchTarget s a }) s)

/-- `brt` (spec/42_control.md R132). -/
def execBrt (a : Word) (s : State) : Host.Outcome State Fault Refusal :=
  finish (popWord 2#32 (fun c t => if countsAsTrue c then { t with pc := branchTarget s a } else t) s)

/-- `bsr` (spec/42_control.md R133): pushes the address of the instruction after it. -/
def execBsr (a : Word) (s : State) : Host.Outcome State Fault Refusal :=
  finish do
    let t ← pushWord 2#32 (s.following 2#32) s
    .ok { t with pc := branchTarget s a }

/-- `halt` (spec/42_control.md R134). -/
def execHalt (s : State) : Host.Outcome State Fault Refusal := finish (.ok { s.advance 1#32 with status := .halted })

/-- `jsr` (spec/42_control.md R135): the return address replaces the destination. -/
def execJsr (s : State) : Host.Outcome State Fault Refusal :=
  finish do
    let d ← s.readWord s.sp
    let t ← s.writeWord s.sp (s.following 1#32)
    .ok { t with pc := d }

/-- `nop` (spec/42_control.md R136). -/
def execNop (s : State) : Host.Outcome State Fault Refusal := finish (.ok (s.advance 1#32))

/-- `ret` (spec/42_control.md R137). -/
def execRet (s : State) : Host.Outcome State Fault Refusal :=
  finish (popWord 1#32 (fun r t => { t with pc := r }) s)

end Sys2Proof.Machine
end

