-- ==== Sys2Proof/Machine/Heap.lean ====
section
/-!
DEFINITION. The heap instructions (spec/47_heap.md R200 to R204). HP is the next free address of the heap (R204).
-/

namespace Sys2Proof.Machine

/-- `ldh` (spec/47_heap.md R200). -/
def execLdh (a : Word) (s : State) : Host.Outcome State Fault Refusal :=
  finish (replaceTop 2#32 (fun p => s.readWord (displaced p a)) s)

/-- `ldmh` (spec/47_heap.md R201): the pointer plus the displacement is the address of the last word of the block. -/
def execLdmh (a b : Word) (s : State) : Host.Outcome State Fault Refusal :=
  finish do
    let n ← sizeOperand b
    let p ← s.readWord s.sp
    moveBlock 3#32 n (displaced p a - b + 1#32) s.sp (s.sp + b - 1#32) s

/-- `sth` (spec/47_heap.md R202): the two writes happen in the order shown. -/
def execSth (s : State) : Host.Outcome State Fault Refusal :=
  finish do
    let v ← s.readWord s.sp
    let t ← s.writeWord s.hp v
    let t ← t.writeWord s.sp s.hp
    .ok { t with hp := s.hp + 1#32, pc := s.following 1#32 }

/-- `stmh` (spec/47_heap.md R203): the words keep their order, and the address of the last one is pushed. -/
def execStmh (a : Word) (s : State) : Host.Outcome State Fault Refusal :=
  finish do
    let n ← sizeOperand a
    let vs ← s.readWords n (s.sp - a + 1#32)
    let t ← s.writeWords s.hp vs
    let t ← t.writeWord (s.sp - a + 1#32) (s.hp + a - 1#32)
    .ok { t with hp := s.hp + a, sp := s.sp - a + 1#32, pc := s.following 2#32 }

end Sys2Proof.Machine
end

