-- ==== Sys2Proof/Machine/Load.lean ====
section
/-!
DEFINITION. The loads (spec/44_load.md R160 to R170). Bases are the pre-state values of SP and MP (R170).
-/

namespace Sys2Proof.Machine

/-- Pushes the word at address `src` (spec/44_load.md R163, R168). -/
def pushFrom (len src : Word) (s : State) : Result State := do
  let v ← s.readWord src
  pushWord len v s

/-- `lda` (spec/44_load.md R160): the value replaces the pointer. -/
def execLda (a : Word) (s : State) : Host.Outcome State Fault Refusal :=
  finish (replaceTop 2#32 (fun p => s.readWord (displaced p a)) s)

/-- `ldaa` (spec/44_load.md R161, after spec/90_conflicts.md C3): the top of the stack plus the operand; SP stays. -/
def execLdaa (a : Word) (s : State) : Host.Outcome State Fault Refusal :=
  finish (replaceTop 2#32 (fun p => .ok (displaced p a)) s)

/-- `ldc` (spec/44_load.md R162). -/
def execLdc (a : Word) (s : State) : Host.Outcome State Fault Refusal := finish (pushWord 2#32 a s)

/-- `ldl` (spec/44_load.md R163). -/
def execLdl (a : Word) (s : State) : Host.Outcome State Fault Refusal :=
  finish (pushFrom 2#32 (displaced s.mp a) s)

/-- `ldla` (spec/44_load.md R164): the address is computed, not read. -/
def execLdla (a : Word) (s : State) : Host.Outcome State Fault Refusal :=
  finish (pushWord 2#32 (displaced s.mp a) s)

/-- `lds` (spec/44_load.md R168): relative to SP before the push. -/
def execLds (a : Word) (s : State) : Host.Outcome State Fault Refusal :=
  finish (pushFrom 2#32 (displaced s.sp a) s)

/-- `ldsa` (spec/44_load.md R169): the address is computed, not read. -/
def execLdsa (a : Word) (s : State) : Host.Outcome State Fault Refusal :=
  finish (pushWord 2#32 (displaced s.sp a) s)

/-- `ldma` (spec/44_load.md R165): the first word replaces the pointer. -/
def execLdma (a b : Word) (s : State) : Host.Outcome State Fault Refusal :=
  finish do
    let n ← sizeOperand b
    let p ← s.readWord s.sp
    moveBlock 3#32 n (displaced p a) s.sp (s.sp + b - 1#32) s

/-- `ldml` (spec/44_load.md R166). -/
def execLdml (a b : Word) (s : State) : Host.Outcome State Fault Refusal :=
  finish do
    let n ← sizeOperand b
    moveBlock 3#32 n (displaced s.mp a) (s.sp + 1#32) (s.sp + b) s

/-- `ldms` (spec/44_load.md R167): relative to SP before the push. -/
def execLdms (a b : Word) (s : State) : Host.Outcome State Fault Refusal :=
  finish do
    let n ← sizeOperand b
    moveBlock 3#32 n (displaced s.sp a) (s.sp + 1#32) (s.sp + b) s

end Sys2Proof.Machine
end

