-- ==== Sys2Proof/Machine/Register.lean ====
section
/-!
DEFINITION. The register instructions (spec/46_register.md R190 to R197). A write to register 0 is a jump: the register
write comes after the advance of PC and replaces it (R196).
-/

namespace Sys2Proof.Machine

/-- `ldr` (spec/46_register.md R190). -/
def execLdr (a : Word) (s : State) : Host.Outcome State Fault Refusal :=
  finish do
    let r ← regOperand a
    pushWord 2#32 (readReg s 2#32 r) s

/-- `ldrr` (spec/46_register.md R191): the first operand is the destination. Where both operands are no register numbers the
fault carries the first, a DESIGN CHOICE (log 16). -/
def execLdrr (a b : Word) (s : State) : Host.Outcome State Fault Refusal :=
  finish do
    let dst ← regOperand a
    let src ← regOperand b
    .ok ((s.advance 3#32).setReg dst (readReg s 3#32 src))

/-- `str` (spec/46_register.md R192): the pop, then the register write, which wins for SP (R197). -/
def execStr (a : Word) (s : State) : Host.Outcome State Fault Refusal :=
  finish do
    let r ← regOperand a
    popWord 2#32 (fun v t => t.setReg r v) s

/-- `swpr` (spec/46_register.md R193). `swpr SP` has no meaning (R197). -/
def execSwpr (a : Word) (s : State) : Host.Outcome State Fault Refusal :=
  finish do
    let r ← regOperand a
    if r = .sp then raise (.unspecified .swprSP)
    else do
      let v ← s.readWord s.sp
      let t ← s.writeWord s.sp (readReg s 2#32 r)
      .ok ((t.advance 2#32).setReg r v)

/-- `swprr` (spec/46_register.md R194): with the same register twice nothing but PC changes. Where both operands are no
register numbers the fault carries the first, a DESIGN CHOICE (log 16). -/
def execSwprr (a b : Word) (s : State) : Host.Outcome State Fault Refusal :=
  finish do
    let ra ← regOperand a
    let rb ← regOperand b
    if ra = rb then .ok (s.advance 3#32)
    else .ok (((s.advance 3#32).setReg ra (readReg s 3#32 rb)).setReg rb (readReg s 3#32 ra))

end Sys2Proof.Machine
end

