-- ==== Sys2Proof/Machine/Stack.lean ====
section
/-!
DEFINITION. Stack adjustment and frames (spec/43_stack.md R150 to R153).
-/

namespace Sys2Proof.Machine

/-- `ajs` (spec/43_stack.md R150): no memory is read or written. -/
def execAjs (a : Word) (s : State) : Host.Outcome State Fault Refusal :=
  finish (.ok { s.advance 2#32 with sp := displaced s.sp a })

/-- `link` (spec/43_stack.md R151): the reserved words are not written. -/
def execLink (a : Word) (s : State) : Host.Outcome State Fault Refusal :=
  finish do
    let t ← s.writeWord (s.sp + 1#32) s.mp
    .ok { t with mp := s.sp + 1#32, sp := displaced (s.sp + 1#32) a, pc := s.following 2#32 }

/-- `swp` (spec/43_stack.md R152). -/
def execSwp (s : State) : Host.Outcome State Fault Refusal :=
  finish do
    let t2 ← s.readWord s.sp
    let t1 ← s.readWord (s.sp - 1#32)
    let t ← s.writeWord s.sp t1
    let t ← t.writeWord (s.sp - 1#32) t2
    .ok { t with pc := s.following 1#32 }

/-- `unlink` (spec/43_stack.md R153). -/
def execUnlink (s : State) : Host.Outcome State Fault Refusal :=
  finish do
    let t ← s.readWord s.mp
    .ok { s with sp := s.mp - 1#32, mp := t, pc := s.following 1#32 }

end Sys2Proof.Machine
end

