-- ==== Sys2Proof/Machine/Store.lean ====
section
/-!
DEFINITION. The stores (spec/45_store.md R180 to R186). The popped words stay in memory above the new SP.
-/

namespace Sys2Proof.Machine

/-- `sta` (spec/45_store.md R180, after spec/90_conflicts.md C14): pointer on top, value below it. -/
def execSta (a : Word) (s : State) : Host.Outcome State Fault Refusal :=
  finish do
    let p ← s.readWord s.sp
    let v ← s.readWord (s.sp - 1#32)
    let t ← s.writeWord (displaced p a) v
    .ok { t with sp := s.sp - 2#32, pc := s.following 2#32 }

/-- `stl` (spec/45_store.md R181). -/
def execStl (a : Word) (s : State) : Host.Outcome State Fault Refusal :=
  finish (storeTop 2#32 (displaced s.mp a) s)

/-- `sts` (spec/45_store.md R185): relative to SP before the pop. -/
def execSts (a : Word) (s : State) : Host.Outcome State Fault Refusal :=
  finish (storeTop 2#32 (displaced s.sp a) s)

/-- `stma` (spec/45_store.md R182): the words below the pointer. -/
def execStma (a b : Word) (s : State) : Host.Outcome State Fault Refusal :=
  finish do
    let n ← sizeOperand b
    let p ← s.readWord s.sp
    moveBlock 3#32 n (s.sp - b) (displaced p a) (s.sp - b - 1#32) s

/-- `stml` (spec/45_store.md R183). -/
def execStml (a b : Word) (s : State) : Host.Outcome State Fault Refusal :=
  finish do
    let n ← sizeOperand b
    moveBlock 3#32 n (s.sp - b + 1#32) (displaced s.mp a) (s.sp - b) s

/-- `stms` (spec/45_store.md R184): relative to SP before the pop. -/
def execStms (a b : Word) (s : State) : Host.Outcome State Fault Refusal :=
  finish do
    let n ← sizeOperand b
    moveBlock 3#32 n (s.sp - b + 1#32) (displaced s.sp a) (s.sp - b) s

end Sys2Proof.Machine
end

