-- ==== Sys2Proof/Machine/Trap.lean ====
section
/-!
DEFINITION. The environment call `trap` with its ten services and the meta instruction `annote`
(spec/48_trap_annote.md R210 to R225).
-/

namespace Sys2Proof.Machine

/-- Services 1 and 2: pop one word and append one event to the output stream (spec/48_trap_annote.md R211, R212). -/
def printWord (event : Word → OutputEvent) (s : State) : Result State :=
  popWord 2#32 (fun v t => { t with output := s.output ++ [event v] }) s

/-- Services 3 and 4: push the user's answer, the next free draw (spec/48_trap_annote.md R213, R214). -/
def pushInput (answer : Nat → Word) (s : State) : Result State := do
  let t ← pushWord 2#32 (answer s.inputsDrawn) s
  .ok { t with inputsDrawn := s.inputsDrawn + 1 }

/-- The words of a character sequence from the lowest address up, one word for each character and one word 0, in the given
layout (spec/48_trap_annote.md R215). -/
def sequenceWords (layout : Config.SequenceLayout) (cs : List Word) : List Word :=
  match layout with
  | .terminatorOnTop => cs ++ [0#32]
  | .firstOnTop => 0#32 :: cs.reverse

/-- Service 5 with a layout: pushes the user's character sequence, the next free draw (spec/48_trap_annote.md R215, R44). -/
def pushSequence (layout : Config.SequenceLayout) (s : State) : Result State := do
  let ws := sequenceWords layout (Config.inputSequence s.inputsDrawn)
  let t ← s.writeWords (s.sp + 1#32) ws
  .ok { t with
    sp := s.sp + BitVec.ofNat 32 ws.length
    pc := s.following 2#32
    inputsDrawn := s.inputsDrawn + 1 }

/-- Service 5: refused, or run with a layout, as its configuration says (spec/48_trap_annote.md R215). -/
def readSequence (layout : Option Config.SequenceLayout) (s : State) : Result State :=
  match layout with
  | some l => pushSequence l s
  | none => raise (.unspecified (.service .readCharSequence))

/-- The word on top of the stack exists and is the file pointer of an open file. -/
abbrev State.topIsOpenFile (s : State) : Prop := ValidAddr s.sp ∧ s.wordAt s.sp.toNat ∈ s.openFiles

/-- Service 8: refused, or, in a configuration that implements it, the file pointer on top of the stack is replaced by what
is read from its file, the next free draw. Where the top of the stack is no open file pointer the service is refused too. A
refusal comes before any data is read (spec/48_trap_annote.md R218, spec/60_exceptions.md R233 step 4). -/
def readFromFile (implemented : Bool) (s : State) : Result State :=
  if implemented = true ∧ s.topIsOpenFile then do
    let t ← s.writeWord s.sp (Config.fileInput s.inputsDrawn)
    .ok { t with pc := s.following 2#32, inputsDrawn := s.inputsDrawn + 1 }
  else raise (.unspecified (.service .readCharFromFile))

/-- What each of the ten services does (spec/48_trap_annote.md R211 to R220). Services 5 to 10 are too incomplete in the
source to execute and raise `Fault(Unspecified)` (spec/60_exceptions.md R231, decision D36); 5 and 8 do so because
`Config.sequenceLayout` and `Config.readsFiles` have the values that D36 decides. -/
def serve (svc : TrapService) (s : State) : Result State :=
  match svc with
  | .printInt => printWord (fun v => .printInt v.toInt) s
  | .printChar => printWord (fun v => .printChar v.toNat) s
  | .readInt => pushInput Config.inputInt s
  | .readChar => pushInput Config.inputChar s
  | .readCharSequence => readSequence Config.sequenceLayout s
  | .openForReading => raise (.unspecified (.service .openForReading))
  | .openForWriting => raise (.unspecified (.service .openForWriting))
  | .readCharFromFile => readFromFile Config.readsFiles s
  | .writeCharToFile => raise (.unspecified (.service .writeCharToFile))
  | .closeFile => raise (.unspecified (.service .closeFile))

/-- `trap` (spec/48_trap_annote.md R210): an ordinary instruction that continues at the next one. -/
def execTrap (a : Word) (s : State) : Host.Outcome State Fault Refusal :=
  finish do
    let svc ← serviceOperand a
    serve svc s

/-- `annote` (spec/48_trap_annote.md R225): no register, no memory word, no output event and not PC changes. Its arguments
speak of the display, which is out of scope (spec/00_scope.md section 3). -/
def execAnnote (_reg : Reg) (_low _high : Word) (_color : Color) (_text : String) (s : State) :
    Host.Outcome State Fault Refusal := .next s

end Sys2Proof.Machine
end

