-- ==== Sys2Proof/Machine/Dispatch.lean ====
section
/-!
DEFINITION. One arm per instruction of the opcode map, each a direct call of that instruction's meaning
(spec/30_encoding.md R74).
-/

namespace Sys2Proof.Machine

def exec (i : Instr) (s : State) : Host.Outcome State Fault Refusal :=
  match i with
  | .add => Sys2Proof.Machine.execAdd s
  | .and => Sys2Proof.Machine.execAnd s
  | .div => Sys2Proof.Machine.execDiv s
  | .mod => Sys2Proof.Machine.execMod s
  | .mul => Sys2Proof.Machine.execMul s
  | .or => Sys2Proof.Machine.execOr s
  | .sub => Sys2Proof.Machine.execSub s
  | .xor => Sys2Proof.Machine.execXor s
  | .eq => Sys2Proof.Machine.execEq s
  | .ne => Sys2Proof.Machine.execNe s
  | .lt => Sys2Proof.Machine.execLt s
  | .gt => Sys2Proof.Machine.execGt s
  | .le => Sys2Proof.Machine.execLe s
  | .ge => Sys2Proof.Machine.execGe s
  | .neg => Sys2Proof.Machine.execNeg s
  | .not => Sys2Proof.Machine.execNot s
  | .ajs a => Sys2Proof.Machine.execAjs a s
  | .bra a => Sys2Proof.Machine.execBra a s
  | .brf a => Sys2Proof.Machine.execBrf a s
  | .brt a => Sys2Proof.Machine.execBrt a s
  | .bsr a => Sys2Proof.Machine.execBsr a s
  | .halt => Sys2Proof.Machine.execHalt s
  | .jsr => Sys2Proof.Machine.execJsr s
  | .lda a => Sys2Proof.Machine.execLda a s
  | .ldma a b => Sys2Proof.Machine.execLdma a b s
  | .ldaa a => Sys2Proof.Machine.execLdaa a s
  | .ldc a => Sys2Proof.Machine.execLdc a s
  | .ldl a => Sys2Proof.Machine.execLdl a s
  | .ldml a b => Sys2Proof.Machine.execLdml a b s
  | .ldla a => Sys2Proof.Machine.execLdla a s
  | .ldr a => Sys2Proof.Machine.execLdr a s
  | .ldrr a b => Sys2Proof.Machine.execLdrr a b s
  | .lds a => Sys2Proof.Machine.execLds a s
  | .ldms a b => Sys2Proof.Machine.execLdms a b s
  | .ldsa a => Sys2Proof.Machine.execLdsa a s
  | .link a => Sys2Proof.Machine.execLink a s
  | .nop => Sys2Proof.Machine.execNop s
  | .ret => Sys2Proof.Machine.execRet s
  | .sta a => Sys2Proof.Machine.execSta a s
  | .stma a b => Sys2Proof.Machine.execStma a b s
  | .stl a => Sys2Proof.Machine.execStl a s
  | .stml a b => Sys2Proof.Machine.execStml a b s
  | .str a => Sys2Proof.Machine.execStr a s
  | .sts a => Sys2Proof.Machine.execSts a s
  | .stms a b => Sys2Proof.Machine.execStms a b s
  | .swp => Sys2Proof.Machine.execSwp s
  | .swpr a => Sys2Proof.Machine.execSwpr a s
  | .swprr a b => Sys2Proof.Machine.execSwprr a b s
  | .trap a => Sys2Proof.Machine.execTrap a s
  | .unlink => Sys2Proof.Machine.execUnlink s
  | .ldh a => Sys2Proof.Machine.execLdh a s
  | .ldmh a b => Sys2Proof.Machine.execLdmh a b s
  | .sth => Sys2Proof.Machine.execSth s
  | .stmh a => Sys2Proof.Machine.execStmh a s
  | .annote reg low high color text => Sys2Proof.Machine.execAnnote reg low high color text s

end Sys2Proof.Machine
end

