-- ==== Sys2Proof/Machine/Step.lean ====
section
/-!
DEFINITION. One step of the machine (spec/70_reset_and_hazards.md R260 step 6, spec/10_state.md R25).
-/

namespace Sys2Proof.Machine

/-- One step: a running machine fetches and decodes the instruction at PC and executes it; a fault of the fetch or of the
instruction makes it FAULTED; a stopped machine stays stopped. -/
def step (s : State) : Host.Outcome State Fault Refusal :=
  match s.status with
  | .halted => haltedOutcome s
  | .faulted f => faultedOutcome f
  | .running =>
    match s.fetchInstr with
    | .ok i => settle s (exec i s)
    | .error (.fault f) => settle s (.fault f)
    | .error (.refused r) => .refused r

/-- The state with the instruction of the numeral `w` (its low `nbits` bits, zeros above) stored where `step` fetches. -/
def State.withFetchWord (s : State) (nbits w : Nat) : State := s.withCode (tableWords nbits w)

end Sys2Proof.Machine
end

