-- ==== Sys2Proof/Machine/Assembler.lean ====
section
/-!
DEFINITION. The assembler's source text, its labels and the layout of the image (spec/30_encoding.md R79 to R87,
spec/70_reset_and_hazards.md R260 steps 1 and 2). A text that the rules give no meaning (U37 of
spec/93_implementation_defined.md) is an error and has no image. Characters the source does not speak of are log 15; what it
leaves open about labels is log 17.
-/

namespace Sys2Proof.Machine

/-- Why a source text has no image (U37 of spec/93_implementation_defined.md). -/
inductive AsmError where
  | badLine
  | unknownMnemonic
  | argumentCount
  | badArgument
  | undefinedLabel
  | duplicateLabel
deriving DecidableEq, Repr

/-- A piece of a source line after its label: a blank-free run of characters, or a text in double quotes. -/
inductive Piece where
  | word (cs : List Char)
  | quoted (cs : List Char)
deriving DecidableEq, Repr

/-- The double quote (spec/30_encoding.md R86). -/
def quoteChar : Char := Char.ofNat 34

/-- A blank between arguments (spec/30_encoding.md R79): the space, the tab and the carriage return (log 15). -/
def isBlank (c : Char) : Bool := decide (c.toNat = 32) || decide (c.toNat = 9) || decide (c.toNat = 13)

/-- The piece that a run of characters (in reverse) makes, put before other pieces. -/
def flushRun (acc : List Char) (rest : List Piece) : List Piece :=
  match acc with
  | [] => rest
  | _ :: _ => .word acc.reverse :: rest

/-- Whether a comment starts at the character `c` followed by `cs`: `;` or `//` (spec/30_encoding.md R79). -/
def startsComment (c : Char) (cs : List Char) : Bool :=
  decide (c = ';') || (decide (c = '/') && decide (cs.head? = some '/'))

/-- The pieces of a line, without its label, up to its comment (spec/30_encoding.md R79); `none` for a text in quotes that
does not end. A double quote opens such a text where a piece begins. DESIGN CHOICE (log 15): what looks like a comment inside
quotes is part of the text, and no blank is needed after the closing quote. -/
def pieces (inQuote : Bool) (acc : List Char) : List Char → Option (List Piece)
  | [] => if inQuote then none else some (flushRun acc [])
  | c :: cs =>
    if inQuote then
      if c = quoteChar then (pieces false [] cs).map (fun r => .quoted acc.reverse :: r)
      else pieces true (c :: acc) cs
    else if startsComment c cs then some (flushRun acc [])
    else if c = quoteChar ∧ acc = [] then pieces true [] cs
    else if isBlank c then (pieces false [] cs).map (flushRun acc)
    else pieces false (c :: acc) cs

/-- A decimal digit. -/
def decimalDigit (c : Char) : Option Nat :=
  if 48 ≤ c.toNat ∧ c.toNat ≤ 57 then some (c.toNat - 48) else none

/-- A hexadecimal digit; letters are upper case (spec/30_encoding.md R82). -/
def hexDigit (c : Char) : Option Nat :=
  if 65 ≤ c.toNat ∧ c.toNat ≤ 70 then some (c.toNat - 55) else decimalDigit c

/-- The value of a run of digits after `acc`. -/
def digitsFrom (base : Nat) (digit : Char → Option Nat) (acc : Nat) : List Char → Option Nat
  | [] => some acc
  | c :: cs =>
    match digit c with
    | some d => digitsFrom base digit (acc * base + d) cs
    | none => none

/-- The value of a run of one digit or more. -/
def digits (base : Nat) (digit : Char → Option Nat) (cs : List Char) : Option Nat :=
  if cs.isEmpty then none else digitsFrom base digit 0 cs

/-- A numeral: decimal, decimal with a minus sign, or hexadecimal with `0x` (spec/30_encoding.md R82). DESIGN CHOICE (log 15):
a decimal numeral may have leading zeros and is still read as decimal. -/
def numeral (cs : List Char) : Option Int :=
  match cs with
  | '-' :: ds => (digits 10 decimalDigit ds).map (fun n => -(n : Int))
  | '0' :: 'x' :: hs => (digits 16 hexDigit hs).map (fun n => (n : Int))
  | ds => (digits 10 decimalDigit ds).map (fun n => (n : Int))

/-- The 32-bit two's complement word of a numeral (spec/30_encoding.md R82); a number that no 32-bit word is, signed or
unsigned, has none (log 15). -/
def numeralWord (n : Int) : Option Word :=
  if -2147483648 ≤ n ∧ n ≤ 4294967295 then some (wrap n) else none

/-- The register names: the purpose names and `R0` to `R7` (spec/30_encoding.md R83, spec/10_state.md R11). -/
def registerNames : List (String × Reg) :=
  [("PC", .pc), ("SP", .sp), ("MP", .mp), ("HP", .hp), ("RR", .rr), ("R0", .pc), ("R1", .sp), ("R2", .mp), ("R3", .hp),
    ("R4", .rr), ("R5", .r5), ("R6", .r6), ("R7", .r7)]

/-- The twelve colours (spec/30_encoding.md R86). -/
def colorNames : List (String × Color) :=
  [("black", .black), ("blue", .blue), ("cyan", .cyan), ("darkGray", .darkGray), ("gray", .gray), ("green", .green),
    ("lightGray", .lightGray), ("magenta", .magenta), ("orange", .orange), ("pink", .pink), ("red", .red),
    ("yellow", .yellow)]

/-- The value a name has in a list of names. -/
def named {α : Type} (names : List (String × α)) (cs : List Char) : Option α :=
  (names.find? (fun e => decide (e.1.toList = cs))).map Prod.snd

/-- A letter or the underscore, with which an identifier begins (log 15). -/
def isLetter (c : Char) : Bool :=
  (decide (65 ≤ c.toNat) && decide (c.toNat ≤ 90)) || (decide (97 ≤ c.toNat) && decide (c.toNat ≤ 122)) ||
    decide (c.toNat = 95)

/-- A character of an identifier after its first (log 15). -/
def isIdentifierChar (c : Char) : Bool := isLetter c || (decimalDigit c).isSome

/-- An identifier, as a label is one (spec/30_encoding.md R84; its characters are log 15). -/
def isIdentifier : List Char → Bool
  | [] => false
  | c :: cs => isLetter c && cs.all isIdentifierChar

/-- One line: "(label:)? (instr arg*)?" (spec/30_encoding.md R79). -/
structure SourceLine where
  label : Option (List Char)
  item : Option (List Char × List Piece)
deriving DecidableEq, Repr

/-- The label that a line begins with, without its colon, and the rest of the line (spec/30_encoding.md R79). DESIGN CHOICE:
blanks may stand between the label and its colon and none is needed after it (log 15), and a label may be spelt as a mnemonic
or a register name is (log 17). -/
def splitLabel (cs : List Char) : Option (List Char × List Char) :=
  let line := cs.dropWhile isBlank
  let label := line.takeWhile isIdentifierChar
  match (line.dropWhile isIdentifierChar).dropWhile isBlank with
  | ':' :: rest => if isIdentifier label then some (label, rest) else none
  | _ => none

/-- The part of a line after its label: an instruction with its arguments, or nothing (spec/30_encoding.md R79). -/
def parseItem (cs : List Char) : Except AsmError (Option (List Char × List Piece)) :=
  match pieces false [] cs with
  | none => .error .badLine
  | some [] => .ok none
  | some (.word m :: args) => .ok (some (m, args))
  | some (.quoted _ :: _) => .error .badLine

/-- A line of characters as a label and an instruction, both optional (spec/30_encoding.md R79, R80). -/
def parseLine (cs : List Char) : Except AsmError SourceLine :=
  match splitLabel cs with
  | some (l, rest) => (parseItem rest).map (fun i => ⟨some l, i⟩)
  | none => (parseItem cs).map (fun i => ⟨none, i⟩)

/-- The lines of a text. -/
def textLines : List Char → List (List Char)
  | [] => [[]]
  | c :: cs =>
    match textLines cs with
    | [] => [[c]]
    | l :: ls => if c.toNat = 10 then [] :: l :: ls else (c :: l) :: ls

/-- The row of a mnemonic, in the table's spelling (spec/30_encoding.md R81). -/
def lookupMnemonic (m : List Char) : Option Row := opcodeTable.find? (fun r => decide (r.mnemonic.toList = m))

/-- The mnemonic of the meta instruction (spec/30_encoding.md R76). -/
def annoteMnemonic : List Char := "annote".toList

/-- How many words a line assembles to: `1 + k`, and none for `annote` (spec/30_encoding.md R85). -/
def lineLength (line : SourceLine) : Except AsmError Nat :=
  match line.item with
  | none => .ok 0
  | some (m, _) =>
    if m = annoteMnemonic then .ok 0
    else
      match lookupMnemonic m with
      | some row => .ok (1 + row.shape.inlineOperands)
      | none => .error .unknownMnemonic

/-- Labels with their addresses. -/
abbrev Labels := List (List Char × Nat)

/-- Resolution: a label's address is that of the next instruction after it (spec/30_encoding.md R84, R85), counted from
`addr`. DESIGN CHOICE (log 17): a label with no instruction after it has the address after the last word, the program length
`L`. A label defined twice is an error (U37). -/
def resolve (addr : Nat) (known : Labels) : List SourceLine → Except AsmError Labels
  | [] => .ok known
  | line :: lines => do
    let n ← lineLength line
    match line.label with
    | none => resolve (addr + n) known lines
    | some l =>
      if known.any (fun e => decide (e.1 = l)) then .error .duplicateLabel
      else resolve (addr + n) ((l, addr) :: known) lines

/-- The offset that takes a branch at address `p` to address `target` (spec/30_encoding.md R84). -/
def branchOffset (p target : Nat) : Word := wrap ((target : Int) - ((p : Int) + 2))

/-- The word a label assembles to at address `p`: an offset in a branch, the address elsewhere (R84). -/
def labelWord (kind : OperandKind) (p target : Nat) : Word :=
  match kind with
  | .branchOffset => branchOffset p target
  | .constant => BitVec.ofNat 32 target
  | .displacement => BitVec.ofNat 32 target
  | .size => BitVec.ofNat 32 target
  | .register => BitVec.ofNat 32 target
  | .service => BitVec.ofNat 32 target

/-- The word of an argument that is a number or a label, at address `p`. -/
def valueWord (labels : Labels) (p : Nat) (kind : OperandKind) (cs : List Char) : Except AsmError Word :=
  match numeral cs with
  | some n =>
    match numeralWord n with
    | some w => .ok w
    | none => .error .badArgument
  | none =>
    if isIdentifier cs then
      match labels.find? (fun e => decide (e.1 = cs)) with
      | some e => .ok (labelWord kind p e.2)
      | none => .error .undefinedLabel
    else .error .badArgument

/-- The word of a register argument (spec/30_encoding.md R83). -/
def registerWord (cs : List Char) : Except AsmError Word :=
  match named registerNames cs with
  | some r => .ok (registerNumber r)
  | none => .error .badArgument

/-- The operand word of one argument of an instruction at address `p` (spec/30_encoding.md R82 to R84). -/
def argumentWord (labels : Labels) (p : Nat) (kind : OperandKind) (arg : Piece) : Except AsmError Word :=
  match arg, kind with
  | .word cs, .register => registerWord cs
  | .word cs, .constant => valueWord labels p .constant cs
  | .word cs, .displacement => valueWord labels p .displacement cs
  | .word cs, .size => valueWord labels p .size cs
  | .word cs, .branchOffset => valueWord labels p .branchOffset cs
  | .word cs, .service => valueWord labels p .service cs
  | .quoted _, _ => .error .badArgument

/-- The operand words of an instruction at address `p`, one for each inline operand (spec/30_encoding.md R79). -/
def argumentWords (labels : Labels) (p : Nat) : List OperandKind → List Piece → Except AsmError (List Word)
  | [], [] => .ok []
  | kind :: kinds, arg :: args => do
    let w ← argumentWord labels p kind arg
    let ws ← argumentWords labels p kinds args
    .ok (w :: ws)
  | [], _ :: _ => .error .argumentCount
  | _ :: _, [] => .error .argumentCount

/-- The instruction of a row with its operand words. -/
def buildInstr (shape : Shape) (ws : List Word) : Except AsmError Instr :=
  match shape, ws with
  | .f0 i, [] => .ok i
  | .f1 make, [a] => .ok (make a)
  | .f2 make, [a, b] => .ok (make a b)
  | .f0 _, _ => .error .argumentCount
  | .f1 _, _ => .error .argumentCount
  | .f2 _, _ => .error .argumentCount

/-- `annote <register> <low offset> <high offset> <color> <text>` at address `p` (spec/30_encoding.md R84, R86). -/
def buildAnnote (labels : Labels) (p : Nat) (reg low high color text : List Char) : Except AsmError Instr := do
  let l ← valueWord labels p .constant low
  let h ← valueWord labels p .constant high
  match named registerNames reg, named colorNames color with
  | some r, some c => .ok (.annote r l h c (String.ofList text))
  | none, _ => .error .badArgument
  | some _, none => .error .badArgument

/-- The instruction of `annote` with its five arguments; quotes are needed only for a text with blanks
(spec/30_encoding.md R86). -/
def parseAnnote (labels : Labels) (p : Nat) (args : List Piece) : Except AsmError Instr :=
  match args with
  | [.word reg, .word low, .word high, .word color, .word text] => buildAnnote labels p reg low high color text
  | [.word reg, .word low, .word high, .word color, .quoted text] => buildAnnote labels p reg low high color text
  | _ => .error .argumentCount

/-- The instruction of a mnemonic with its arguments, at address `p`. -/
def parseInstr (labels : Labels) (p : Nat) (m : List Char) (args : List Piece) : Except AsmError Instr :=
  if m = annoteMnemonic then parseAnnote labels p args
  else
    match lookupMnemonic m with
    | none => .error .unknownMnemonic
    | some row => do
      let ws ← argumentWords labels p row.kinds args
      buildInstr row.shape ws

/-- The instructions of the lines, the first at address `p`, in text order with no gaps (spec/30_encoding.md R85). -/
def assembleLines (labels : Labels) (p : Nat) : List SourceLine → Except AsmError (List Instr)
  | [] => .ok []
  | line :: lines =>
    match line.item with
    | none => assembleLines labels p lines
    | some (m, args) => do
      let i ← parseInstr labels p m args
      let rest ← assembleLines labels (p + (encode i).length) lines
      .ok (i :: rest)

/-- The lines of a text, each parsed. -/
def parseLines : List (List Char) → Except AsmError (List SourceLine)
  | [] => .ok []
  | cs :: css => do
    let line ← parseLine cs
    let lines ← parseLines css
    .ok (line :: lines)

/-- The instructions of a source text: every label is resolved first, then every line is assembled from address 0
(spec/30_encoding.md R84, R85). -/
def assemble (text : List Char) : Except AsmError (List Instr) := do
  let lines ← parseLines (textLines text)
  let labels ← resolve 0 [] lines
  assembleLines labels 0 lines

/-- The words of a program in text order, `L` of them (spec/30_encoding.md R85). -/
def image (program : List Instr) : List Word := program.flatMap encode

end Sys2Proof.Machine
end

