-- ==== Sys2Proof/Machine/Loader.lean ====
section
/-!
DEFINITION. What the host does before a run with an assembled image (spec/20_memory.md R55, spec/70_reset_and_hazards.md R260
steps 3 to 5). STACK_BASE, MP_INIT and HEAP_BASE are arguments here, as the OPEN parameters they are
(spec/10_state.md R31 to R33); `State.reset` is the case of the values the model names with no program (log 2).
-/

namespace Sys2Proof.Machine

/-- The memory that holds an image at addresses 0 to L - 1 and nothing else (spec/10_state.md R35). -/
def imageMemory (image : List Word) : Memory := Memory.insertMany [] 0 image

/-- The image and the parameters meet the constraints of spec/10_state.md R31, R33 and spec/70_reset_and_hazards.md R260:
`L <= MEM_WORDS`, `L - 1 <= STACK_BASE`, `STACK_BASE + 1 < MEM_WORDS`, `STACK_BASE < HEAP_BASE`. -/
def fits (stackBase heapBase : Word) (image : List Word) : Bool :=
  decide (image.length ≤ Config.memWords) && decide (image.length ≤ stackBase.toNat + 1) &&
    decide (stackBase.toNat + 1 < Config.memWords) && decide (stackBase.toNat < heapBase.toNat)

/-- The state at the start of a run of `image`, or `none` where it does not fit and has no run (R260). -/
def boot (stackBase mpInit heapBase : Word) (image : List Word) : Option State :=
  if fits stackBase heapBase image then
    some { State.reset with sp := stackBase, mp := mpInit, hp := heapBase, mem := imageMemory image }
  else none

end Sys2Proof.Machine
end

