-- ==== Sys2Proof/Safety.lean ====
section
/-!
DEFINITION. The terms that claims use: blocks of words that exist, what an instruction may change (spec/00_scope.md R3), and
the shapes that the rules of several instructions share.
-/

namespace Sys2Proof.Machine

-- Addresses.

/-- Every one of the `n` words from `a` up exists; with `n = 0` nothing is asked (spec/20_memory.md R41). -/
abbrev ValidBlock (a : Word) (n : Nat) : Prop := n = 0 ∨ a.toNat + n ≤ Config.memWords

/-- The set of no address. -/
def NoWord : Nat → Prop := fun _ => False

/-- The set of one address. -/
def OneWord (a : Word) : Nat → Prop := fun x => x = a.toNat

/-- The set of the `n` addresses from `a` up. -/
def BlockOf (a : Word) (n : Nat) : Nat → Prop := fun x => a.toNat ≤ x ∧ x < a.toNat + n

/-- The union of two sets of addresses. -/
def BothOf (p q : Nat → Prop) : Nat → Prop := fun x => p x ∨ q x

/-- The words `ws` have been written at PC and up, at addresses that exist. -/
def CodeAt (s : State) (ws : List Word) : Prop :=
  ∀ k v, ws[k]? = some v → s.pc.toNat + k < Config.memWords ∧ Memory.lookup s.mem (s.pc.toNat + k) = some v

-- What stays as it was.

/-- Every register but those listed is unchanged. -/
def SameRegistersBut (s t : State) (changed : List Reg) : Prop := ∀ r, r ∉ changed → t.reg r = s.reg r

/-- Every word of memory at an address outside `stored` reads as before. -/
def SameMemoryBut (s t : State) (stored : Nat → Prop) : Prop := ∀ a, ¬ stored a → t.wordAt a = s.wordAt a

/-- The run status and the environment are unchanged. -/
def SameEnvironment (s t : State) : Prop :=
  t.status = s.status ∧ t.output = s.output ∧ t.openFiles = s.openFiles ∧ t.inputsDrawn = s.inputsDrawn

/-- Nothing changes but the registers `changed` and the words at the addresses `stored` (spec/00_scope.md R3). -/
def Frame (s t : State) (changed : List Reg) (stored : Nat → Prop) : Prop :=
  SameRegistersBut s t changed ∧ SameMemoryBut s t stored ∧ SameEnvironment s t

/-- The register of a register operand, as a list of none or one. -/
def namedRegister (w : Word) : List Reg := (regOfNumber w).toList

/-- The registers that an instruction's rule names as written, PC included. -/
def registersWritten : Instr → List Reg
  | .add => [.pc, .sp]
  | .and => [.pc, .sp]
  | .div => [.pc, .sp]
  | .mod => [.pc, .sp]
  | .mul => [.pc, .sp]
  | .or => [.pc, .sp]
  | .sub => [.pc, .sp]
  | .xor => [.pc, .sp]
  | .eq => [.pc, .sp]
  | .ne => [.pc, .sp]
  | .lt => [.pc, .sp]
  | .gt => [.pc, .sp]
  | .le => [.pc, .sp]
  | .ge => [.pc, .sp]
  | .neg => [.pc]
  | .not => [.pc]
  | .ajs _ => [.pc, .sp]
  | .bra _ => [.pc]
  | .brf _ => [.pc, .sp]
  | .brt _ => [.pc, .sp]
  | .bsr _ => [.pc, .sp]
  | .halt => [.pc]
  | .jsr => [.pc]
  | .lda _ => [.pc]
  | .ldma _ _ => [.pc, .sp]
  | .ldaa _ => [.pc]
  | .ldc _ => [.pc, .sp]
  | .ldl _ => [.pc, .sp]
  | .ldml _ _ => [.pc, .sp]
  | .ldla _ => [.pc, .sp]
  | .ldr _ => [.pc, .sp]
  | .ldrr a _ => .pc :: namedRegister a
  | .lds _ => [.pc, .sp]
  | .ldms _ _ => [.pc, .sp]
  | .ldsa _ => [.pc, .sp]
  | .link _ => [.pc, .sp, .mp]
  | .nop => [.pc]
  | .ret => [.pc, .sp]
  | .sta _ => [.pc, .sp]
  | .stma _ _ => [.pc, .sp]
  | .stl _ => [.pc, .sp]
  | .stml _ _ => [.pc, .sp]
  | .str a => .pc :: .sp :: namedRegister a
  | .sts _ => [.pc, .sp]
  | .stms _ _ => [.pc, .sp]
  | .swp => [.pc]
  | .swpr a => .pc :: namedRegister a
  | .swprr a b => .pc :: (namedRegister a ++ namedRegister b)
  | .trap _ => [.pc, .sp]
  | .unlink => [.pc, .sp, .mp]
  | .ldh _ => [.pc]
  | .ldmh _ _ => [.pc, .sp]
  | .sth => [.pc, .hp]
  | .stmh _ => [.pc, .sp, .hp]
  | .annote _ _ _ _ _ => []

/-- The addresses that a service of `trap` writes (spec/48_trap_annote.md R211 to R220). For services 5 and 8
they are the words of the configurations that run them; the machine refuses both (log 14). -/
def servicesWritten (svc : TrapService) (s : State) : Nat → Prop :=
  match svc with
  | .printInt => NoWord
  | .printChar => NoWord
  | .readInt => OneWord (s.sp + 1#32)
  | .readChar => OneWord (s.sp + 1#32)
  | .readCharSequence => BlockOf (s.sp + 1#32) ((Config.inputSequence s.inputsDrawn).length + 1)
  | .openForReading => NoWord
  | .openForWriting => NoWord
  | .readCharFromFile => OneWord s.sp
  | .writeCharToFile => NoWord
  | .closeFile => NoWord

/-- The addresses that an instruction's rule names as written, computed from the state before it as its meaning computes
them. -/
def addressesWritten (i : Instr) (s : State) : Nat → Prop :=
  match i with
  | .add => OneWord (s.sp - 1#32)
  | .and => OneWord (s.sp - 1#32)
  | .div => OneWord (s.sp - 1#32)
  | .mod => OneWord (s.sp - 1#32)
  | .mul => OneWord (s.sp - 1#32)
  | .or => OneWord (s.sp - 1#32)
  | .sub => OneWord (s.sp - 1#32)
  | .xor => OneWord (s.sp - 1#32)
  | .eq => OneWord (s.sp - 1#32)
  | .ne => OneWord (s.sp - 1#32)
  | .lt => OneWord (s.sp - 1#32)
  | .gt => OneWord (s.sp - 1#32)
  | .le => OneWord (s.sp - 1#32)
  | .ge => OneWord (s.sp - 1#32)
  | .neg => OneWord s.sp
  | .not => OneWord s.sp
  | .ajs _ => NoWord
  | .bra _ => NoWord
  | .brf _ => NoWord
  | .brt _ => NoWord
  | .bsr _ => OneWord (s.sp + 1#32)
  | .halt => NoWord
  | .jsr => OneWord s.sp
  | .lda _ => OneWord s.sp
  | .ldma _ b => BlockOf s.sp b.toNat
  | .ldaa _ => OneWord s.sp
  | .ldc _ => OneWord (s.sp + 1#32)
  | .ldl _ => OneWord (s.sp + 1#32)
  | .ldml _ b => BlockOf (s.sp + 1#32) b.toNat
  | .ldla _ => OneWord (s.sp + 1#32)
  | .ldr _ => OneWord (s.sp + 1#32)
  | .ldrr _ _ => NoWord
  | .lds _ => OneWord (s.sp + 1#32)
  | .ldms _ b => BlockOf (s.sp + 1#32) b.toNat
  | .ldsa _ => OneWord (s.sp + 1#32)
  | .link _ => OneWord (s.sp + 1#32)
  | .nop => NoWord
  | .ret => NoWord
  | .sta a => OneWord (displaced (s.wordAt s.sp.toNat) a)
  | .stma a b => BlockOf (displaced (s.wordAt s.sp.toNat) a) b.toNat
  | .stl a => OneWord (displaced s.mp a)
  | .stml a b => BlockOf (displaced s.mp a) b.toNat
  | .str _ => NoWord
  | .sts a => OneWord (displaced s.sp a)
  | .stms a b => BlockOf (displaced s.sp a) b.toNat
  | .swp => BothOf (OneWord s.sp) (OneWord (s.sp - 1#32))
  | .swpr _ => OneWord s.sp
  | .swprr _ _ => NoWord
  | .trap a =>
    match trapCode a with
    | some svc => servicesWritten svc s
    | none => NoWord
  | .unlink => NoWord
  | .ldh _ => OneWord s.sp
  | .ldmh _ b => BlockOf s.sp b.toNat
  | .sth => BothOf (OneWord s.hp) (OneWord s.sp)
  | .stmh a => BothOf (BlockOf s.hp a.toNat) (OneWord (s.sp - a + 1#32))
  | .annote _ _ _ _ _ => NoWord

/-- The instructions whose rule gives PC another value than that of the following instruction (spec/10_state.md R15): the
control transfers, and the register instructions that name register 0 as a destination. -/
def setsPc : Instr → Prop
  | .add => False
  | .and => False
  | .div => False
  | .mod => False
  | .mul => False
  | .or => False
  | .sub => False
  | .xor => False
  | .eq => False
  | .ne => False
  | .lt => False
  | .gt => False
  | .le => False
  | .ge => False
  | .neg => False
  | .not => False
  | .ajs _ => False
  | .bra _ => True
  | .brf _ => True
  | .brt _ => True
  | .bsr _ => True
  | .halt => False
  | .jsr => True
  | .lda _ => False
  | .ldma _ _ => False
  | .ldaa _ => False
  | .ldc _ => False
  | .ldl _ => False
  | .ldml _ _ => False
  | .ldla _ => False
  | .ldr _ => False
  | .ldrr a _ => a = 0#32
  | .lds _ => False
  | .ldms _ _ => False
  | .ldsa _ => False
  | .link _ => False
  | .nop => False
  | .ret => True
  | .sta _ => False
  | .stma _ _ => False
  | .stl _ => False
  | .stml _ _ => False
  | .str a => a = 0#32
  | .sts _ => False
  | .stms _ _ => False
  | .swp => False
  | .swpr a => a = 0#32
  | .swprr a b => a = 0#32 ∨ b = 0#32
  | .trap _ => False
  | .unlink => False
  | .ldh _ => False
  | .ldmh _ _ => False
  | .sth => False
  | .stmh _ => False
  | .annote _ _ _ _ _ => False

/-- An outcome with the program counter one word further on, for comparing an instruction with a form of it that is one
word longer. -/
def oneWordLonger (o : Host.Outcome State Fault Refusal) : Host.Outcome State Fault Refusal :=
  match o with
  | .next t => .next { t with pc := t.pc + 1#32 }
  | .fault f => .fault f
  | .refused r => .refused r

/-- The 54 executable codes, written out from the map of spec/30_encoding.md R74. -/
def executableCodes : List Word :=
  [0x01, 0x02, 0x04, 0x07, 0x08, 0x09, 0x0c, 0x0d, 0x0e, 0x0f, 0x10, 0x11, 0x12, 0x13, 0x20, 0x21, 0x64, 0x68, 0x6c, 0x6d,
    0x70, 0x74, 0x78, 0x7c, 0x7e, 0x80, 0x84, 0x88, 0x8a, 0x8c, 0x90, 0x94, 0x98, 0x9a, 0x9c, 0xa0, 0xa4, 0xa8, 0xac, 0xae,
    0xb0, 0xb2, 0xb4, 0xb8, 0xba, 0xbc, 0xc0, 0xc4, 0xc8, 0xcc, 0xd0, 0xd4, 0xd6, 0xd8]

-- The shapes of rules. Each says, for one instruction `i` and one state `s`, when it executes normally and what it does
-- then, and which fault it raises otherwise.

/-- An access to a word that does not exist stops `i` in `s` at the address `a` (spec/20_memory.md R41). -/
def StopsAt (i : Instr) (s : State) (access : Access) (a : Word) : Prop :=
  exec i s = .fault (.memoryRange access a)

/-- The two-operand template of spec/40_alu.md R100 and spec/41_compare.md R120: `result v1 v2 r` says that `r` is the
result for the left operand `v1` and the right operand `v2`. -/
def BinaryRule (i : Instr) (code : Word) (result : Word → Word → Word → Prop) : Prop :=
  encode i = [code] ∧ ∀ s : State,
    (ValidAddr s.sp → ValidAddr (s.sp - 1#32) →
      ∃ t, exec i s = .next t ∧ t.pc = s.pc + 1#32 ∧ t.sp = s.sp - 1#32 ∧
        result (s.wordAt (s.sp - 1#32).toNat) (s.wordAt s.sp.toNat) (t.wordAt (s.sp - 1#32).toNat) ∧
        Frame s t [.pc, .sp] (OneWord (s.sp - 1#32))) ∧
    (¬ ValidAddr s.sp → StopsAt i s .read s.sp) ∧
    (ValidAddr s.sp → ¬ ValidAddr (s.sp - 1#32) → StopsAt i s .read (s.sp - 1#32))

/-- The template of `div` and `mod`: as `BinaryRule`, but a divisor 0 is `Fault(DivideByZero)` (R103, R104). -/
def DivisionRule (i : Instr) (code : Word) (result : Word → Word → Word → Prop) : Prop :=
  encode i = [code] ∧ ∀ s : State,
    (ValidAddr s.sp → ValidAddr (s.sp - 1#32) → s.wordAt s.sp.toNat ≠ 0#32 →
      ∃ t, exec i s = .next t ∧ t.pc = s.pc + 1#32 ∧ t.sp = s.sp - 1#32 ∧
        result (s.wordAt (s.sp - 1#32).toNat) (s.wordAt s.sp.toNat) (t.wordAt (s.sp - 1#32).toNat) ∧
        Frame s t [.pc, .sp] (OneWord (s.sp - 1#32))) ∧
    (ValidAddr s.sp → ValidAddr (s.sp - 1#32) → s.wordAt s.sp.toNat = 0#32 → exec i s = .fault .divideByZero) ∧
    (¬ ValidAddr s.sp → StopsAt i s .read s.sp) ∧
    (ValidAddr s.sp → ¬ ValidAddr (s.sp - 1#32) → StopsAt i s .read (s.sp - 1#32))

/-- The one-operand template of spec/40_alu.md R106, R107. -/
def UnaryRule (i : Instr) (code : Word) (result : Word → Word → Prop) : Prop :=
  encode i = [code] ∧ ∀ s : State,
    (ValidAddr s.sp →
      ∃ t, exec i s = .next t ∧ t.pc = s.pc + 1#32 ∧
        result (s.wordAt s.sp.toNat) (t.wordAt s.sp.toNat) ∧ Frame s t [.pc] (OneWord s.sp)) ∧
    (¬ ValidAddr s.sp → StopsAt i s .read s.sp)

/-- A comparison: the result is TRUE_WORD where the relation holds and 0 where it does not (spec/41_compare.md R120). -/
def ComparisonRule (i : Instr) (code : Word) (rel : Word → Word → Prop) : Prop :=
  BinaryRule i code fun v1 v2 r => (rel v1 v2 → r = 0xFFFFFFFF#32) ∧ (¬ rel v1 v2 → r = 0x00000000#32)

/-- A two-word instruction that pushes the word `v s` (spec/44_load.md R162, R164, R169). -/
def PushRule (i : Instr) (code a : Word) (v : State → Word) : Prop :=
  encode i = [code, a] ∧ ∀ s : State,
    (ValidAddr (s.sp + 1#32) →
      ∃ t, exec i s = .next t ∧ t.pc = s.pc + 2#32 ∧ t.sp = s.sp + 1#32 ∧
        t.wordAt (s.sp + 1#32).toNat = v s ∧ Frame s t [.pc, .sp] (OneWord (s.sp + 1#32))) ∧
    (¬ ValidAddr (s.sp + 1#32) → StopsAt i s .write (s.sp + 1#32))

/-- A two-word instruction that pushes the word at the address `src s` (spec/44_load.md R163, R168). -/
def PushFromRule (i : Instr) (code a : Word) (src : State → Word) : Prop :=
  encode i = [code, a] ∧ ∀ s : State,
    (ValidAddr (src s) → ValidAddr (s.sp + 1#32) →
      ∃ t, exec i s = .next t ∧ t.pc = s.pc + 2#32 ∧ t.sp = s.sp + 1#32 ∧
        t.wordAt (s.sp + 1#32).toNat = s.wordAt (src s).toNat ∧ Frame s t [.pc, .sp] (OneWord (s.sp + 1#32))) ∧
    (¬ ValidAddr (src s) → StopsAt i s .read (src s)) ∧
    (ValidAddr (src s) → ¬ ValidAddr (s.sp + 1#32) → StopsAt i s .write (s.sp + 1#32))

/-- A two-word instruction that replaces the pointer on top of the stack by the word it points to, `a` further on
(spec/44_load.md R160, spec/47_heap.md R200). -/
def DereferenceRule (i : Instr) (code a : Word) : Prop :=
  encode i = [code, a] ∧ ∀ s : State,
    (ValidAddr s.sp → ValidAddr (s.wordAt s.sp.toNat + a) →
      ∃ t, exec i s = .next t ∧ t.pc = s.pc + 2#32 ∧
        t.wordAt s.sp.toNat = s.wordAt (s.wordAt s.sp.toNat + a).toNat ∧ Frame s t [.pc] (OneWord s.sp)) ∧
    (¬ ValidAddr s.sp → StopsAt i s .read s.sp) ∧
    (ValidAddr s.sp → ¬ ValidAddr (s.wordAt s.sp.toNat + a) → StopsAt i s .read (s.wordAt s.sp.toNat + a))

/-- A two-word instruction that pops one word and stores it at the address `dst s` (spec/45_store.md R181, R185). -/
def PopToRule (i : Instr) (code a : Word) (dst : State → Word) : Prop :=
  encode i = [code, a] ∧ ∀ s : State,
    (ValidAddr s.sp → ValidAddr (dst s) →
      ∃ t, exec i s = .next t ∧ t.pc = s.pc + 2#32 ∧ t.sp = s.sp - 1#32 ∧
        t.wordAt (dst s).toNat = s.wordAt s.sp.toNat ∧ Frame s t [.pc, .sp] (OneWord (dst s))) ∧
    (¬ ValidAddr s.sp → StopsAt i s .read s.sp) ∧
    (ValidAddr s.sp → ¬ ValidAddr (dst s) → StopsAt i s .write (dst s))

/-- In state `s` the three-word instruction `i` moves `n` words from `src` up to `dst` up as through a buffer and leaves SP
at `sp'` (spec/20_memory.md R44, R45); a source or destination word that does not exist stops it. -/
def MovesBlock (i : Instr) (s : State) (n : Nat) (src dst sp' : Word) : Prop :=
  (ValidBlock src n → ValidBlock dst n →
    ∃ t, exec i s = .next t ∧ t.pc = s.pc + 3#32 ∧ t.sp = sp' ∧
      (∀ k, k < n → t.wordAt (dst.toNat + k) = s.wordAt (src.toNat + k)) ∧
      Frame s t [.pc, .sp] (BlockOf dst n)) ∧
  (¬ ValidBlock src n → ∃ x, ¬ ValidAddr x ∧ StopsAt i s .read x) ∧
  (ValidBlock src n → ¬ ValidBlock dst n → ∃ x, ¬ ValidAddr x ∧ StopsAt i s .write x)

/-- `PCREAD` of spec/46_register.md R195 for an instruction of `len` words, and any other register as it is. -/
def registerRead (s : State) (len : Word) (r : Reg) : Word :=
  match r with
  | .pc => if Config.pcReadAdvanced then s.pc + len else s.pc
  | r => s.reg r

end Sys2Proof.Machine
end

