-- ==== Sys2Proof/Certificates/Slice0/Obligations.lean ====
section
/-!
DEFINITION. The statements about the model, for the provers. Each docstring names the rules of spec/ it rests on.
-/

open Sys2Proof Sys2Proof.Machine

-- Reset.

/-- R30 and R36: after reset PC is 0, the machine is running, nothing has been printed and no file is open. -/
def Obligations.ResetPcStatusOutputAndFiles : Prop :=
  State.reset.pc = 0#32 ∧ State.reset.status = .running ∧ State.reset.output = [] ∧ State.reset.openFiles = []

/-- The registers that the spec leaves open at reset hold the values the model names (log 1 and log 2: the model's choice,
not the spec's), SP and HP meet the constraints of R31 and R33, and no word of memory has been written. -/
def Obligations.ResetRegistersAreTheNamedValues : Prop :=
  State.reset.sp = 100#32 ∧ State.reset.mp = 100#32 ∧ State.reset.hp = 1500#32 ∧ State.reset.rr = 0#32 ∧
    State.reset.r5 = 0#32 ∧ State.reset.r6 = 0#32 ∧ State.reset.r7 = 0#32 ∧
    State.reset.sp.toNat + 1 < Config.memWords ∧ State.reset.sp.toNat < State.reset.hp.toNat ∧ State.reset.mem = []

/-- The memory of the reset state is in the canonical form. -/
def Obligations.ResetMemoryIsCanonical : Prop := State.reset.mem.wf

-- Decoding and encoding.

/-- Words of section 7 of 30_encoding.md decode to the instructions they are given for. -/
def Obligations.WorkedEncodingsDecode : Prop :=
  decode [0x00000001#32] = .ok (.add, []) ∧
  decode [0x00000084#32, 0x00000001#32] = .ok (.ldc 1#32, []) ∧
  decode [0x00000064#32, 0xFFFFFFFE#32] = .ok (.ajs (wrap (-2)), []) ∧
  decode [0x00000094#32, 0x00000001#32, 0x00000002#32] = .ok (.ldrr 1#32 2#32, []) ∧
  decode [0x000000c4#32, 0x00000002#32, 0x00000007#32] = .ok (.swprr 2#32 7#32, []) ∧
  decode [0x000000d4#32, 0x00000000#32, 0x00000003#32] = .ok (.ldmh 0#32 3#32, []) ∧
  decode [0x00000070#32, 0xFFFFFFF6#32] = .ok (.bsr (wrap (-10)), []) ∧
  decode [0x000000c8#32, 0x00000000#32] = .ok (.trap 0#32, [])

/-- Decode and encode agree, for every instruction: words decode to `i` and leave `rest` exactly where they are the words of
`i` followed by `rest`, with every operand word, and `i` is not the meta instruction (R70, R71, R72, R74, R76, R77). -/
def Obligations.DecodeAndEncodeAgree : Prop :=
  ∀ (ws rest : List Word) (i : Instr), decode ws = .ok (i, rest) ↔ ws = encode i ++ rest ∧ i.isMeta = false

/-- R75: an opcode word outside the 54 codes is illegal, and a running machine that fetches it becomes
FAULTED(IllegalInstruction) with all else as it was. -/
def Obligations.WordsOutsideTheMapAreIllegal : Prop :=
  ∀ (op : Word), op ∉ executableCodes →
    (∀ rest, decode (op :: rest) = .error (.illegal op)) ∧
    ∀ s : State, s.status = .running → CodeAt s [op] →
      step s = .next { s with status := .faulted (.illegalInstruction op) }

/-- R76 and R225: `annote` has no words, its word 0xff is illegal where it is fetched, and it changes nothing. -/
def Obligations.AnnoteHasNoWordsAndNoEffect : Prop :=
  (∀ reg low high color text, encode (.annote reg low high color text) = []) ∧
  (∀ rest, decode (0x000000ff#32 :: rest) = .error (.illegal 0x000000ff#32)) ∧
  (∀ reg low high color text s, exec (.annote reg low high color text) s = .next s)

-- The step.

/-- A step runs the decoded instruction: where the words at PC decode to `i`, the step answers the next state that `exec i`
answers, and where `exec i` faults it answers the state before the instruction with the status FAULTED(kind); `exec`
refuses no instruction (R25, R77, R260 step 6). -/
def Obligations.StepRunsTheDecodedInstruction : Prop :=
  ∀ (s : State) (ws rest : List Word) (i : Instr), s.status = .running → CodeAt s ws → decode ws = .ok (i, rest) →
    (∀ t, exec i s = .next t → step s = .next t) ∧
    (∀ f, exec i s = .fault f → step s = .next { s with status := .faulted f }) ∧
    (∀ r, exec i s ≠ .refused r)

/-- R25: a HALTED machine fetches nothing and no state changes; a FAULTED machine does not go on either, which the model
answers by its fault (log 6). -/
def Obligations.StoppedMachineStaysStopped : Prop :=
  ∀ s : State, (s.status = .halted → step s = .next s) ∧ (∀ f, s.status = .faulted f → step s = .fault f)

/-- R4 and R231: when a running machine becomes FAULTED in a step, its status is all that has changed. -/
def Obligations.FaultsLeaveThePreState : Prop :=
  ∀ (s t : State) (f : Fault), s.status = .running → step s = .next t → t.status = .faulted f →
    t = { s with status := .faulted f }

/-- R16, R41 and R77: a fetch from an address that does not exist, of the opcode word or of an inline operand, raises
`Fault(MemoryRange)`. -/
def Obligations.FetchOutsideMemoryFaults : Prop :=
  ∀ s : State, s.status = .running →
    (¬ ValidAddr s.pc → step s = .next { s with status := .faulted (.memoryRange .fetch s.pc) }) ∧
    (∀ op row, CodeAt s [op] → lookupOpcode op = some row → 1 ≤ row.shape.inlineOperands → ¬ ValidAddr (s.pc + 1#32) →
      step s = .next { s with status := .faulted (.memoryRange .fetch (s.pc + 1#32)) }) ∧
    (∀ op a row, CodeAt s [op, a] → lookupOpcode op = some row → row.shape.inlineOperands = 2 →
      ¬ ValidAddr (s.pc + 2#32) →
      step s = .next { s with status := .faulted (.memoryRange .fetch (s.pc + 2#32)) })

/-- R261, of whose two ways the model takes the refusal (log 4): the fetch of a word that exists and that nothing has written,
the opcode word or an inline operand, is refused by name with its address. -/
def Obligations.FetchOfAnUnwrittenWordIsRefused : Prop :=
  ∀ s : State, s.status = .running →
    (ValidAddr s.pc → Memory.lookup s.mem s.pc.toNat = none → step s = .refused (.fetchUnwritten s.pc)) ∧
    (∀ op row, CodeAt s [op] → lookupOpcode op = some row → 1 ≤ row.shape.inlineOperands → ValidAddr (s.pc + 1#32) →
      Memory.lookup s.mem (s.pc + 1#32).toNat = none → step s = .refused (.fetchUnwritten (s.pc + 1#32))) ∧
    (∀ op a row, CodeAt s [op, a] → lookupOpcode op = some row → row.shape.inlineOperands = 2 →
      ValidAddr (s.pc + 2#32) → Memory.lookup s.mem (s.pc + 2#32).toNat = none →
      step s = .refused (.fetchUnwritten (s.pc + 2#32)))

-- Invariants and rules about the whole machine.

/-- Every step keeps the memory in its canonical form, from any state that has it. -/
def Obligations.StepKeepsTheMemoryCanonical : Prop :=
  ∀ s t : State, s.mem.wf → step s = .next t → t.mem.wf

/-- No step takes back what was printed, and none opens or closes a file (R231 refuses the services that
would, log 14). The number of inputs drawn, the model's own field (log 13), never falls and rises by at most one in a step. -/
def Obligations.StepKeepsTheOutputHistory : Prop :=
  ∀ s t : State, step s = .next t →
    (∃ es, t.output = s.output ++ es) ∧ t.openFiles = s.openFiles ∧
    s.inputsDrawn ≤ t.inputsDrawn ∧ t.inputsDrawn ≤ s.inputsDrawn + 1

/-- Only `trap` prints, draws an input or touches a file (R26, R46). -/
def Obligations.OnlyTrapTouchesTheEnvironment : Prop :=
  ∀ (i : Instr) (s t : State), exec i s = .next t → (∀ a, i ≠ .trap a) →
    t.output = s.output ∧ t.openFiles = s.openFiles ∧ t.inputsDrawn = s.inputsDrawn

/-- Among the instructions that complete, only `halt` changes the run status (R25, R134). -/
def Obligations.OnlyHaltChangesTheStatus : Prop :=
  ∀ (i : Instr) (s t : State), exec i s = .next t → t.status = if i = .halt then .halted else s.status

/-- R3, the frame rule, over all 55 instructions: an instruction that completes changes only the registers and the memory
words that its rule names, the addresses computed as its meaning computes them. The words named for the services 5 and 8 of
`trap` are those of the configurations that run them; the machine refuses both (log 14). -/
def Obligations.OnlyNamedRegistersAndWordsChange : Prop :=
  ∀ (i : Instr) (s t : State), exec i s = .next t →
    SameRegistersBut s t (registersWritten i) ∧ SameMemoryBut s t (addressesWritten i s)

/-- MP, HP, RR and the scratch registers change only by the instructions that name them in their rule: MP by `link` and
`unlink`, HP by `sth` and `stmh`, and all of them by a register instruction that names the register's number (R18 to R21,
R204). -/
def Obligations.ImplicitRegisterWrites : Prop :=
  ∀ (i : Instr) (s t : State) (r : Reg), exec i s = .next t → r ≠ .pc → r ≠ .sp → t.reg r ≠ s.reg r →
    (r = .mp ∧ ((∃ a, i = .link a) ∨ i = .unlink)) ∨ (r = .hp ∧ (i = .sth ∨ ∃ a, i = .stmh a)) ∨
    i = .str (registerNumber r) ∨ i = .swpr (registerNumber r) ∨ (∃ b, i = .ldrr (registerNumber r) b) ∨
    (∃ b, i = .swprr (registerNumber r) b) ∨ (∃ a, i = .swprr a (registerNumber r))

/-- R5: unless its rule writes register 0, an instruction that completes leaves PC at the address after its words. `halt` is
left out, because R134 says of its PC "a claim should not depend on it"; `swprr PC PC`, which `setsPc` shuts out, is in
`SwapTwoRegisters`. -/
def Obligations.PcAdvancesByTheLength : Prop :=
  ∀ (i : Instr) (s t : State), exec i s = .next t → i ≠ .halt → ¬ setsPc i →
    t.pc = s.pc + BitVec.ofNat 32 (encode i).length

-- Arithmetic and logic.

/-- R101, R102, R105, R108, R109, R110 with R100 and R111: the results of the six that raise no fault of their own. -/
def Obligations.TwoOperandResults : Prop :=
  BinaryRule .add 0x01#32 (fun v1 v2 r => r = BitVec.ofNat 32 (v1.toNat + v2.toNat)) ∧
  BinaryRule .mul 0x08#32 (fun v1 v2 r => r = BitVec.ofNat 32 (v1.toNat * v2.toNat)) ∧
  BinaryRule .sub 0x0c#32 (fun v1 v2 r => r = wrap ((v1.toNat : Int) - (v2.toNat : Int))) ∧
  BinaryRule .and 0x02#32 (fun v1 v2 r => ∀ k, k < 32 → r.getLsbD k = (v1.getLsbD k && v2.getLsbD k)) ∧
  BinaryRule .or 0x09#32 (fun v1 v2 r => ∀ k, k < 32 → r.getLsbD k = (v1.getLsbD k || v2.getLsbD k)) ∧
  BinaryRule .xor 0x0d#32 (fun v1 v2 r => ∀ k, k < 32 → r.getLsbD k = (v1.getLsbD k != v2.getLsbD k))

/-- R106 and R107: `neg` is `0 - v` modulo 2^32, `not` complements all 32 bits, SP stays. -/
def Obligations.OneOperandResults : Prop :=
  UnaryRule .neg 0x20#32 (fun v r => r = wrap (0 - (v.toNat : Int))) ∧
  UnaryRule .not 0x21#32 (fun v r => ∀ k, k < 32 → r.getLsbD k = !v.getLsbD k)

/-- R103: the quotient of the signed readings rounded toward zero, wrapped to a word; a divisor 0 is a fault. -/
def Obligations.DivisionResult : Prop :=
  DivisionRule .div 0x04#32 (fun v1 v2 r => r = wrap (Int.tdiv v1.toInt v2.toInt))

/-- R104: the remainder that goes with the quotient of `div`, with the sign of the dividend; the dividend is the quotient
times the divisor plus the remainder. -/
def Obligations.RemainderResult : Prop :=
  DivisionRule .mod 0x07#32 (fun v1 v2 r =>
    r = wrap (v1.toInt - Int.tdiv v1.toInt v2.toInt * v2.toInt) ∧
    r.toInt = Int.tmod v1.toInt v2.toInt ∧
    v1 = wrap (Int.tdiv v1.toInt v2.toInt) * v2 + r)

-- Comparison.

/-- R120 to R127: the six comparisons, the order that of the signed reading, True the word 0xFFFFFFFF and False 0. -/
def Obligations.ComparisonResults : Prop :=
  ComparisonRule .eq 0x0e#32 (fun v1 v2 => v1 = v2) ∧
  ComparisonRule .ne 0x0f#32 (fun v1 v2 => v1 ≠ v2) ∧
  ComparisonRule .lt 0x10#32 (fun v1 v2 => v1.toInt < v2.toInt) ∧
  ComparisonRule .gt 0x11#32 (fun v1 v2 => v1.toInt > v2.toInt) ∧
  ComparisonRule .le 0x12#32 (fun v1 v2 => v1.toInt ≤ v2.toInt) ∧
  ComparisonRule .ge 0x13#32 (fun v1 v2 => v1.toInt ≥ v2.toInt)

-- Control.

/-- R130 and R136, and `halt` of R134: all three complete in every state and change nothing but PC and, for `halt`, the run
status; no value of PC after `halt` is claimed, as R134 asks. -/
def Obligations.BraNopAndHalt : Prop :=
  (∀ a, encode (.bra a) = [0x68#32, a]) ∧ encode .nop = [0xa4#32] ∧ encode .halt = [0x74#32] ∧
  ∀ s : State,
    (∀ a, exec (.bra a) s = .next { s with pc := BitVec.ofNat 32 (s.pc.toNat + 2 + a.toNat) }) ∧
    exec .nop s = .next { s with pc := s.pc + 1#32 } ∧
    ∃ t, exec .halt s = .next t ∧ t.status = .halted ∧ SameRegistersBut s t [.pc] ∧ t.mem = s.mem ∧
      t.output = s.output ∧ t.openFiles = s.openFiles ∧ t.inputsDrawn = s.inputsDrawn

/-- R131, R132 and R139: both conditional branches pop one word; `brf` jumps exactly on the word 0 and `brt` exactly on any
other word, to the operand counted from the following instruction. -/
def Obligations.ConditionalBranches : Prop :=
  ∀ a : Word, encode (.brf a) = [0x6c#32, a] ∧ encode (.brt a) = [0x6d#32, a] ∧ ∀ s : State,
    (ValidAddr s.sp →
      (∃ t, exec (.brf a) s = .next t ∧ t.sp = s.sp - 1#32 ∧ Frame s t [.pc, .sp] NoWord ∧
        (s.wordAt s.sp.toNat = 0#32 → t.pc = BitVec.ofNat 32 (s.pc.toNat + 2 + a.toNat)) ∧
        (s.wordAt s.sp.toNat ≠ 0#32 → t.pc = s.pc + 2#32)) ∧
      (∃ t, exec (.brt a) s = .next t ∧ t.sp = s.sp - 1#32 ∧ Frame s t [.pc, .sp] NoWord ∧
        (s.wordAt s.sp.toNat ≠ 0#32 → t.pc = BitVec.ofNat 32 (s.pc.toNat + 2 + a.toNat)) ∧
        (s.wordAt s.sp.toNat = 0#32 → t.pc = s.pc + 2#32))) ∧
    (¬ ValidAddr s.sp → StopsAt (.brf a) s .read s.sp ∧ StopsAt (.brt a) s .read s.sp)

/-- R133: `bsr` pushes the address of the instruction after it and jumps. -/
def Obligations.BranchToSubroutine : Prop :=
  ∀ a : Word, encode (.bsr a) = [0x70#32, a] ∧ ∀ s : State,
    (ValidAddr (s.sp + 1#32) →
      ∃ t, exec (.bsr a) s = .next t ∧ t.pc = BitVec.ofNat 32 (s.pc.toNat + 2 + a.toNat) ∧ t.sp = s.sp + 1#32 ∧
        t.wordAt (s.sp + 1#32).toNat = s.pc + 2#32 ∧ Frame s t [.pc, .sp] (OneWord (s.sp + 1#32))) ∧
    (¬ ValidAddr (s.sp + 1#32) → StopsAt (.bsr a) s .write (s.sp + 1#32))

/-- R135 and R137: `jsr` exchanges the destination on top of the stack for the return address and jumps; `ret` pops the
word on top and jumps to it. -/
def Obligations.JumpToSubroutineAndReturn : Prop :=
  encode .jsr = [0x78#32] ∧ encode .ret = [0xa8#32] ∧ ∀ s : State,
    (ValidAddr s.sp →
      (∃ t, exec .jsr s = .next t ∧ t.pc = s.wordAt s.sp.toNat ∧ t.wordAt s.sp.toNat = s.pc + 1#32 ∧
        Frame s t [.pc] (OneWord s.sp)) ∧
      (∃ t, exec .ret s = .next t ∧ t.pc = s.wordAt s.sp.toNat ∧ t.sp = s.sp - 1#32 ∧
        Frame s t [.pc, .sp] NoWord)) ∧
    (¬ ValidAddr s.sp → StopsAt .jsr s .read s.sp ∧ StopsAt .ret s .read s.sp)

/-- A `ret` right after a `bsr` comes back to the instruction after the `bsr` with SP as it was, and a `ret` right after a
`jsr` to the instruction after the `jsr` (R133, R135, R137). -/
def Obligations.ReturnUndoesTheCall : Prop :=
  (∀ (a : Word) (s t : State), exec (.bsr a) s = .next t →
    ∃ u, exec .ret t = .next u ∧ u.pc = s.pc + 2#32 ∧ Frame s u [.pc] (OneWord (s.sp + 1#32))) ∧
  (∀ s t : State, exec .jsr s = .next t →
    ∃ u, exec .ret t = .next u ∧ u.pc = s.pc + 1#32 ∧ u.sp = s.sp - 1#32 ∧ Frame s u [.pc, .sp] (OneWord s.sp))

-- Stack.

/-- R150: `ajs` moves SP by the signed operand and touches no memory. -/
def Obligations.AdjustStack : Prop :=
  ∀ (a : Word), encode (.ajs a) = [0x64#32, a] ∧ ∀ s : State,
    exec (.ajs a) s = .next { s with sp := wrap ((s.sp.toNat : Int) + a.toInt), pc := s.pc + 2#32 }

/-- R151: `link` pushes MP, lets MP address the pushed word and reserves words above it that it does not write. -/
def Obligations.LinkFrame : Prop :=
  ∀ a : Word, encode (.link a) = [0xa0#32, a] ∧ ∀ s : State,
    (ValidAddr (s.sp + 1#32) →
      ∃ t, exec (.link a) s = .next t ∧ t.pc = s.pc + 2#32 ∧ t.mp = s.sp + 1#32 ∧ t.sp = s.sp + 1#32 + a ∧
        t.wordAt (s.sp + 1#32).toNat = s.mp ∧ Frame s t [.pc, .sp, .mp] (OneWord (s.sp + 1#32))) ∧
    (¬ ValidAddr (s.sp + 1#32) → StopsAt (.link a) s .write (s.sp + 1#32))

/-- R152 and R153: `swp` exchanges the two topmost words; `unlink` restores MP from the word it addresses and drops
everything from there up. -/
def Obligations.SwapAndUnlink : Prop :=
  encode .swp = [0xbc#32] ∧ encode .unlink = [0xcc#32] ∧ ∀ s : State,
    (ValidAddr s.sp → ValidAddr (s.sp - 1#32) →
      ∃ t, exec .swp s = .next t ∧ t.pc = s.pc + 1#32 ∧
        t.wordAt s.sp.toNat = s.wordAt (s.sp - 1#32).toNat ∧ t.wordAt (s.sp - 1#32).toNat = s.wordAt s.sp.toNat ∧
        Frame s t [.pc] (BothOf (OneWord s.sp) (OneWord (s.sp - 1#32)))) ∧
    (¬ ValidAddr s.sp → StopsAt .swp s .read s.sp) ∧
    (ValidAddr s.sp → ¬ ValidAddr (s.sp - 1#32) → StopsAt .swp s .read (s.sp - 1#32)) ∧
    (ValidAddr s.mp →
      ∃ t, exec .unlink s = .next t ∧ t.pc = s.pc + 1#32 ∧ t.mp = s.wordAt s.mp.toNat ∧ t.sp = s.mp - 1#32 ∧
        Frame s t [.pc, .sp, .mp] NoWord) ∧
    (¬ ValidAddr s.mp → StopsAt .unlink s .read s.mp)

/-- An `unlink` right after a `link` restores MP and SP (R151, R153). -/
def Obligations.UnlinkUndoesLink : Prop :=
  ∀ (a : Word) (s t : State), exec (.link a) s = .next t →
    ∃ u, exec .unlink t = .next u ∧ Frame s u [.pc] (OneWord (s.sp + 1#32))

-- Loads.

/-- R162, R164 and R169: `ldc` pushes its operand, `ldla` and `ldsa` the address their operand makes with MP and with SP
before the push. -/
def Obligations.ConstantAndAddressLoads : Prop :=
  ∀ a : Word, PushRule (.ldc a) 0x84#32 a (fun _ => a) ∧
    PushRule (.ldla a) 0x8c#32 a (fun s => wrap ((s.mp.toNat : Int) + a.toInt)) ∧
    PushRule (.ldsa a) 0x9c#32 a (fun s => wrap ((s.sp.toNat : Int) + a.toInt))

/-- R163 and R168: `ldl` pushes a word relative to MP, `lds` one relative to SP before the push. -/
def Obligations.LocalAndStackLoads : Prop :=
  ∀ a : Word, PushFromRule (.ldl a) 0x88#32 a (fun s => wrap ((s.mp.toNat : Int) + a.toInt)) ∧
    PushFromRule (.lds a) 0x98#32 a (fun s => wrap ((s.sp.toNat : Int) + a.toInt))

/-- R160 and R161: `lda` replaces the pointer on top by the word it points to; `ldaa` adds its operand to the top, and SP
stays. -/
def Obligations.PointerLoads : Prop :=
  ∀ a : Word, DereferenceRule (.lda a) 0x7c#32 a ∧ encode (.ldaa a) = [0x80#32, a] ∧ ∀ s : State,
    (ValidAddr s.sp →
      ∃ t, exec (.ldaa a) s = .next t ∧ t.pc = s.pc + 2#32 ∧
        t.wordAt s.sp.toNat = wrap ((s.wordAt s.sp.toNat).toNat + a.toInt) ∧ Frame s t [.pc] (OneWord s.sp)) ∧
    (¬ ValidAddr s.sp → StopsAt (.ldaa a) s .read s.sp)

/-- R166 and R167: `ldml` and `ldms` push `b` words, lowest address first, every one read before any is written; a negative
size faults. -/
def Obligations.LocalAndStackBlockLoads : Prop :=
  ∀ a b : Word, encode (.ldml a b) = [0x8a#32, a, b] ∧ encode (.ldms a b) = [0x9a#32, a, b] ∧ ∀ s : State,
    (b.toInt < 0 →
      exec (.ldml a b) s = .fault (.operandRange b) ∧ exec (.ldms a b) s = .fault (.operandRange b)) ∧
    (0 ≤ b.toInt →
      MovesBlock (.ldml a b) s b.toNat (s.mp + a) (s.sp + 1#32) (s.sp + b) ∧
      MovesBlock (.ldms a b) s b.toNat (s.sp + a) (s.sp + 1#32) (s.sp + b))

/-- R165: `ldma` loads the block that begins at the pointer plus the displacement, and its first word replaces the pointer;
a negative size faults before the pointer is read. -/
def Obligations.PointerBlockLoad : Prop :=
  ∀ a b : Word, encode (.ldma a b) = [0x7e#32, a, b] ∧ ∀ s : State,
    (b.toInt < 0 → exec (.ldma a b) s = .fault (.operandRange b)) ∧
    (0 ≤ b.toInt → ValidAddr s.sp →
      MovesBlock (.ldma a b) s b.toNat (s.wordAt s.sp.toNat + a) s.sp (s.sp + b - 1#32)) ∧
    (0 ≤ b.toInt → ¬ ValidAddr s.sp → StopsAt (.ldma a b) s .read s.sp)

-- Stores.

/-- R181 and R185: `stl` pops a word into a location relative to MP, `sts` into one relative to SP before the pop. -/
def Obligations.LocalAndStackStores : Prop :=
  ∀ a : Word, PopToRule (.stl a) 0xb0#32 a (fun s => wrap ((s.mp.toNat : Int) + a.toInt)) ∧
    PopToRule (.sts a) 0xb8#32 a (fun s => wrap ((s.sp.toNat : Int) + a.toInt))

/-- R180: `sta` takes the pointer from the top of the stack and the value from below it. -/
def Obligations.StoreViaAddress : Prop :=
  ∀ a : Word, encode (.sta a) = [0xac#32, a] ∧ ∀ s : State,
    (ValidAddr s.sp → ValidAddr (s.sp - 1#32) → ValidAddr (displaced (s.wordAt s.sp.toNat) a) →
      ∃ t, exec (.sta a) s = .next t ∧ t.pc = s.pc + 2#32 ∧ t.sp = s.sp - 2#32 ∧
        t.wordAt (displaced (s.wordAt s.sp.toNat) a).toNat = s.wordAt (s.sp - 1#32).toNat ∧
        Frame s t [.pc, .sp] (OneWord (displaced (s.wordAt s.sp.toNat) a))) ∧
    (¬ ValidAddr s.sp → StopsAt (.sta a) s .read s.sp) ∧
    (ValidAddr s.sp → ¬ ValidAddr (s.sp - 1#32) → StopsAt (.sta a) s .read (s.sp - 1#32)) ∧
    (ValidAddr s.sp → ValidAddr (s.sp - 1#32) → ¬ ValidAddr (displaced (s.wordAt s.sp.toNat) a) →
      StopsAt (.sta a) s .write (displaced (s.wordAt s.sp.toNat) a))

/-- R183 and R184: `stml` and `stms` pop `b` words, the deepest to the lowest address, every one read before any is
written; a negative size faults. -/
def Obligations.LocalAndStackBlockStores : Prop :=
  ∀ a b : Word, encode (.stml a b) = [0xb2#32, a, b] ∧ encode (.stms a b) = [0xba#32, a, b] ∧ ∀ s : State,
    (b.toInt < 0 →
      exec (.stml a b) s = .fault (.operandRange b) ∧ exec (.stms a b) s = .fault (.operandRange b)) ∧
    (0 ≤ b.toInt →
      MovesBlock (.stml a b) s b.toNat (s.sp - b + 1#32) (s.mp + a) (s.sp - b) ∧
      MovesBlock (.stms a b) s b.toNat (s.sp - b + 1#32) (s.sp + a) (s.sp - b))

/-- R182: `stma` pops the pointer and the `b` words below it, the deepest to the lowest address; a negative size faults
before the pointer is read. -/
def Obligations.PointerBlockStore : Prop :=
  ∀ a b : Word, encode (.stma a b) = [0xae#32, a, b] ∧ ∀ s : State,
    (b.toInt < 0 → exec (.stma a b) s = .fault (.operandRange b)) ∧
    (0 ≤ b.toInt → ValidAddr s.sp →
      MovesBlock (.stma a b) s b.toNat (s.sp - b) (s.wordAt s.sp.toNat + a) (s.sp - b - 1#32)) ∧
    (0 ≤ b.toInt → ¬ ValidAddr s.sp → StopsAt (.stma a b) s .read s.sp)

/-- The multi-word form with size 1 is the single form, a fault included, but that its own words are one more
(corner cases of R165 to R167, R182 to R184, R201, R203). -/
def Obligations.SizeOneIsTheSingleForm : Prop :=
  ∀ (a : Word) (s : State),
    exec (.ldma a 1#32) s = oneWordLonger (exec (.lda a) s) ∧ exec (.ldml a 1#32) s = oneWordLonger (exec (.ldl a) s) ∧
    exec (.ldms a 1#32) s = oneWordLonger (exec (.lds a) s) ∧ exec (.ldmh a 1#32) s = oneWordLonger (exec (.ldh a) s) ∧
    exec (.stma a 1#32) s = oneWordLonger (exec (.sta a) s) ∧ exec (.stml a 1#32) s = oneWordLonger (exec (.stl a) s) ∧
    exec (.stms a 1#32) s = oneWordLonger (exec (.sts a) s) ∧ exec (.stmh 1#32) s = oneWordLonger (exec .sth s)

-- Heap.

/-- `sth` stores the top of the stack at HP, advances HP by one and leaves the old HP on top, and where HP and SP are one
address the value is overwritten by its own address; `ldh` replaces the pointer on top by the word it points to (the spec's
own derivation from the prose, R200 and R202). -/
def Obligations.HeapWordStoreAndLoad : Prop :=
  (∀ a : Word, DereferenceRule (.ldh a) 0xd0#32 a) ∧ encode .sth = [0xd6#32] ∧ ∀ s : State,
    (ValidAddr s.sp → ValidAddr s.hp →
      ∃ t, exec .sth s = .next t ∧ t.pc = s.pc + 1#32 ∧ t.hp = s.hp + 1#32 ∧ t.wordAt s.sp.toNat = s.hp ∧
        (s.hp ≠ s.sp → t.wordAt s.hp.toNat = s.wordAt s.sp.toNat) ∧
        Frame s t [.pc, .hp] (BothOf (OneWord s.hp) (OneWord s.sp))) ∧
    (¬ ValidAddr s.sp → StopsAt .sth s .read s.sp) ∧
    (ValidAddr s.sp → ¬ ValidAddr s.hp → StopsAt .sth s .write s.hp)

/-- `stmh` stores the `a` topmost words at HP in their order, advances HP by `a`, and replaces them by the address of the
last one (the spec's own derivation from the prose, R203); a negative size faults. -/
def Obligations.HeapBlockStore : Prop :=
  ∀ a : Word, encode (.stmh a) = [0xd8#32, a] ∧ ∀ s : State,
    (a.toInt < 0 → exec (.stmh a) s = .fault (.operandRange a)) ∧
    (0 ≤ a.toInt → ValidBlock (s.sp - a + 1#32) a.toNat → ValidBlock s.hp a.toNat → ValidAddr (s.sp - a + 1#32) →
      ∃ t, exec (.stmh a) s = .next t ∧ t.pc = s.pc + 2#32 ∧ t.hp = s.hp + a ∧ t.sp = s.sp - a + 1#32 ∧
        t.wordAt (s.sp - a + 1#32).toNat = s.hp + a - 1#32 ∧
        (∀ k, k < a.toNat → s.hp.toNat + k ≠ (s.sp - a + 1#32).toNat →
          t.wordAt (s.hp.toNat + k) = s.wordAt ((s.sp - a + 1#32).toNat + k)) ∧
        Frame s t [.pc, .sp, .hp] (BothOf (BlockOf s.hp a.toNat) (OneWord (s.sp - a + 1#32)))) ∧
    (0 ≤ a.toInt → ¬ ValidBlock (s.sp - a + 1#32) a.toNat → ∃ x, ¬ ValidAddr x ∧ StopsAt (.stmh a) s .read x) ∧
    (0 ≤ a.toInt → ValidBlock (s.sp - a + 1#32) a.toNat →
      (¬ ValidBlock s.hp a.toNat ∨ ¬ ValidAddr (s.sp - a + 1#32)) →
      ∃ x, ¬ ValidAddr x ∧ StopsAt (.stmh a) s .write x)

/-- `ldmh` loads the block that ends at the pointer plus the displacement, and its first word replaces the pointer (the
spec's own derivation from the source's example, R201); a negative size faults. -/
def Obligations.HeapBlockLoad : Prop :=
  ∀ a b : Word, encode (.ldmh a b) = [0xd4#32, a, b] ∧ ∀ s : State,
    (b.toInt < 0 → exec (.ldmh a b) s = .fault (.operandRange b)) ∧
    (0 ≤ b.toInt → ValidAddr s.sp →
      MovesBlock (.ldmh a b) s b.toNat (s.wordAt s.sp.toNat + a - b + 1#32) s.sp (s.sp + b - 1#32)) ∧
    (0 ≤ b.toInt → ¬ ValidAddr s.sp → StopsAt (.ldmh a b) s .read s.sp)

/-- The source's heap example in general: `ldmh 0 n` right after `stmh n` brings the `n` words back to where they were on
the stack, in their order, where the heap block and the stack words do not overlap (R201, R203). -/
def Obligations.HeapBlockRoundTrip : Prop :=
  ∀ (n : Word) (s t : State), 1 ≤ n.toNat → exec (.stmh n) s = .next t →
    (s.sp.toNat < s.hp.toNat ∨ s.hp.toNat + n.toNat ≤ (s.sp - n + 1#32).toNat) →
    ∃ u, exec (.ldmh 0#32 n) t = .next u ∧ u.sp = s.sp ∧ u.hp = s.hp + n ∧
      Frame s u [.pc, .hp] (BlockOf s.hp n.toNat) ∧
      ∀ k, k < n.toNat → u.wordAt (s.hp.toNat + k) = s.wordAt ((s.sp - n + 1#32).toNat + k)

-- Registers.

/-- R190, R195 and R197: `ldr` pushes any of the eight registers, SP as it was before the push, and for PC whichever of the
two values PC_READ_ADVANCED gives. -/
def Obligations.LoadRegister : Prop :=
  (∀ a, encode (.ldr a) = [0x90#32, a]) ∧
  (∀ (a : Word) (s : State), 7 < a.toNat → exec (.ldr a) s = .fault (.registerNumber a)) ∧ ∀ (r : Reg) (s : State),
    (ValidAddr (s.sp + 1#32) →
      ∃ t, exec (.ldr (registerNumber r)) s = .next t ∧ t.pc = s.pc + 2#32 ∧ t.sp = s.sp + 1#32 ∧
        t.wordAt (s.sp + 1#32).toNat = registerRead s 2#32 r ∧ Frame s t [.pc, .sp] (OneWord (s.sp + 1#32))) ∧
    (¬ ValidAddr (s.sp + 1#32) → StopsAt (.ldr (registerNumber r)) s .write (s.sp + 1#32))

/-- R191, R195 and R196: `ldrr` copies the second register to the first, every pair of the eight; with PC as the destination
it is a jump. -/
def Obligations.CopyRegister : Prop :=
  (∀ a b, encode (.ldrr a b) = [0x94#32, a, b]) ∧
  (∀ (a b : Word) (s : State), 7 < a.toNat ∨ 7 < b.toNat → ∃ w, exec (.ldrr a b) s = .fault (.registerNumber w)) ∧
  ∀ (dst src : Reg) (s : State),
    ∃ t, exec (.ldrr (registerNumber dst) (registerNumber src)) s = .next t ∧
      t.reg dst = registerRead s 3#32 src ∧ (dst ≠ .pc → t.pc = s.pc + 3#32) ∧ Frame s t [.pc, dst] NoWord

/-- R192, R196 and R197: `str` pops a word into any of the eight registers; for SP the popped word wins over the pop, and
for PC it is a jump. -/
def Obligations.StoreRegister : Prop :=
  (∀ a, encode (.str a) = [0xb4#32, a]) ∧
  (∀ (a : Word) (s : State), 7 < a.toNat → exec (.str a) s = .fault (.registerNumber a)) ∧ ∀ (r : Reg) (s : State),
    (ValidAddr s.sp →
      ∃ t, exec (.str (registerNumber r)) s = .next t ∧ t.reg r = s.wordAt s.sp.toNat ∧
        (r ≠ .pc → t.pc = s.pc + 2#32) ∧ (r ≠ .sp → t.sp = s.sp - 1#32) ∧ Frame s t [.pc, .sp, r] NoWord) ∧
    (¬ ValidAddr s.sp → StopsAt (.str (registerNumber r)) s .read s.sp)

/-- R193, R195 to R197: `swpr` exchanges a register with the top of the stack; `swpr SP` raises `Fault(Unspecified)`. -/
def Obligations.SwapRegister : Prop :=
  (∀ a, encode (.swpr a) = [0xc0#32, a]) ∧
  (∀ (a : Word) (s : State), 7 < a.toNat → exec (.swpr a) s = .fault (.registerNumber a)) ∧ ∀ (r : Reg) (s : State),
    (r ≠ .sp → ValidAddr s.sp →
      ∃ t, exec (.swpr (registerNumber r)) s = .next t ∧ t.reg r = s.wordAt s.sp.toNat ∧
        t.wordAt s.sp.toNat = registerRead s 2#32 r ∧ (r ≠ .pc → t.pc = s.pc + 2#32) ∧
        Frame s t [.pc, r] (OneWord s.sp)) ∧
    (r ≠ .sp → ¬ ValidAddr s.sp → StopsAt (.swpr (registerNumber r)) s .read s.sp) ∧
    (r = .sp → exec (.swpr (registerNumber r)) s = .fault (.unspecified .swprSP))

/-- R194 to R196: `swprr` exchanges two registers; with the same register twice nothing but PC changes. -/
def Obligations.SwapTwoRegisters : Prop :=
  (∀ a b, encode (.swprr a b) = [0xc4#32, a, b]) ∧
  (∀ (a b : Word) (s : State), 7 < a.toNat ∨ 7 < b.toNat → ∃ w, exec (.swprr a b) s = .fault (.registerNumber w)) ∧
  ∀ (ra rb : Reg) (s : State),
    (ra ≠ rb →
      ∃ t, exec (.swprr (registerNumber ra) (registerNumber rb)) s = .next t ∧
        t.reg ra = registerRead s 3#32 rb ∧ t.reg rb = registerRead s 3#32 ra ∧
        (ra ≠ .pc → rb ≠ .pc → t.pc = s.pc + 3#32) ∧ Frame s t [.pc, ra, rb] NoWord) ∧
    (ra = rb → exec (.swprr (registerNumber ra) (registerNumber rb)) s = .next { s with pc := s.pc + 3#32 })

/-- R13: a register operand outside 0 to 7 raises `Fault(RegisterNumber)` in each of the five register instructions, and
the eight words 0 to 7 are the numbers of the eight registers. The fault carries the operand word; where both operands are
outside, it carries one of them (which one is log 16 and not claimed here). -/
def Obligations.RegisterNumbersOutsideFault : Prop :=
  (∀ a : Word, a.toNat ≤ 7 ↔ ∃ r, a = registerNumber r) ∧
  ∀ (a b : Word) (s : State),
    (7 < a.toNat →
      exec (.ldr a) s = .fault (.registerNumber a) ∧ exec (.str a) s = .fault (.registerNumber a) ∧
      exec (.swpr a) s = .fault (.registerNumber a)) ∧
    (7 < a.toNat → b.toNat ≤ 7 →
      exec (.ldrr a b) s = .fault (.registerNumber a) ∧ exec (.swprr a b) s = .fault (.registerNumber a)) ∧
    (a.toNat ≤ 7 → 7 < b.toNat →
      exec (.ldrr a b) s = .fault (.registerNumber b) ∧ exec (.swprr a b) s = .fault (.registerNumber b)) ∧
    (7 < a.toNat → 7 < b.toNat →
      ∃ w, (w = a ∨ w = b) ∧ exec (.ldrr a b) s = .fault (.registerNumber w) ∧
        exec (.swprr a b) s = .fault (.registerNumber w))

-- The environment call.

/-- R211: `trap 0` pops the top of the stack and prints it as a signed integer. -/
def Obligations.TrapZeroPrintsAnInteger : Prop :=
  encode (.trap 0#32) = [0xc8#32, 0#32] ∧ ∀ s : State,
    (ValidAddr s.sp →
      exec (.trap 0#32) s = .next { s with
        pc := s.pc + 2#32, sp := s.sp - 1#32, output := s.output ++ [.printInt (s.wordAt s.sp.toNat).toInt] }) ∧
    (¬ ValidAddr s.sp → StopsAt (.trap 0#32) s .read s.sp)

/-- R210 and R221: every other operand goes to the service TRAP_CODE gives it, and faults where it gives none. -/
def Obligations.TrapGoesToTheServiceOfItsOperand : Prop :=
  trapCode 0#32 = some .printInt ∧ ∀ (a : Word) (s : State), a ≠ 0#32 →
    exec (.trap a) s =
      match Config.trapCodeOther a with
      | some svc => finish (serve svc s)
      | none => .fault (.trapCode a)

/-- R212 to R214: print character carries the word as it is; the two input services push the user's answer, a free value that
is any word. That the answers are numbered by `inputsDrawn`, which rises by one, is the model's choice (log 13). -/
def Obligations.CharacterAndInputServices : Prop :=
  ∀ s : State,
    (ValidAddr s.sp →
      serve .printChar s = .ok { s with
        pc := s.pc + 2#32, sp := s.sp - 1#32, output := s.output ++ [.printChar (s.wordAt s.sp.toNat).toNat] }) ∧
    (¬ ValidAddr s.sp → serve .printChar s = .error (.memoryRange .read s.sp)) ∧
    (ValidAddr (s.sp + 1#32) →
      (∃ t, serve .readInt s = .ok t ∧ t.pc = s.pc + 2#32 ∧ t.sp = s.sp + 1#32 ∧
        t.wordAt (s.sp + 1#32).toNat = Config.inputInt s.inputsDrawn ∧
        SameRegistersBut s t [.pc, .sp] ∧ SameMemoryBut s t (OneWord (s.sp + 1#32)) ∧
        t.output = s.output ∧ t.openFiles = s.openFiles ∧ t.status = s.status ∧ t.inputsDrawn = s.inputsDrawn + 1) ∧
      (∃ t, serve .readChar s = .ok t ∧ t.pc = s.pc + 2#32 ∧ t.sp = s.sp + 1#32 ∧
        t.wordAt (s.sp + 1#32).toNat = Config.inputChar s.inputsDrawn ∧
        SameRegistersBut s t [.pc, .sp] ∧ SameMemoryBut s t (OneWord (s.sp + 1#32)) ∧
        t.output = s.output ∧ t.openFiles = s.openFiles ∧ t.status = s.status ∧ t.inputsDrawn = s.inputsDrawn + 1)) ∧
    (¬ ValidAddr (s.sp + 1#32) →
      serve .readInt s = .error (.memoryRange .write (s.sp + 1#32)) ∧
      serve .readChar s = .error (.memoryRange .write (s.sp + 1#32)))

/-- Services 5 and 8 in every configuration that R215 and R218 leave: service 5 is refused, or it pushes one word for each
character and one word 0 in one of the two layouts that R215 names; service 8 is refused, or it replaces the pointer of an
open file on top of the stack by a free word, and is refused wherever the top is no such pointer. The machine has the
configuration that D36 decides (log 14), and refuses service 5 in every state. The draws are numbered as log 13 chooses. -/
def Obligations.SequenceAndFileInputServices : Prop :=
  (∀ cs, sequenceWords .terminatorOnTop cs = cs ++ [0#32] ∧ sequenceWords .firstOnTop cs = 0#32 :: cs.reverse) ∧
  ∀ s : State,
    serve .readCharSequence s = .error (.unspecified (.service .readCharSequence)) ∧
    readSequence none s = .error (.unspecified (.service .readCharSequence)) ∧
    (∀ layout n ws, n = (Config.inputSequence s.inputsDrawn).length →
      ws = sequenceWords layout (Config.inputSequence s.inputsDrawn) →
      (ValidBlock (s.sp + 1#32) (n + 1) →
        ∃ t, readSequence (some layout) s = .ok t ∧ t.pc = s.pc + 2#32 ∧ t.sp = s.sp + BitVec.ofNat 32 (n + 1) ∧
          (∀ k v, ws[k]? = some v → t.wordAt ((s.sp + 1#32).toNat + k) = v) ∧
          SameRegistersBut s t [.pc, .sp] ∧ SameMemoryBut s t (BlockOf (s.sp + 1#32) (n + 1)) ∧
          t.output = s.output ∧ t.openFiles = s.openFiles ∧ t.status = s.status ∧
          t.inputsDrawn = s.inputsDrawn + 1) ∧
      (¬ ValidBlock (s.sp + 1#32) (n + 1) →
        ∃ x, ¬ ValidAddr x ∧ readSequence (some layout) s = .error (.memoryRange .write x))) ∧
    (ValidAddr s.sp → s.wordAt s.sp.toNat ∈ s.openFiles →
      ∃ t, readFromFile true s = .ok t ∧ t.pc = s.pc + 2#32 ∧ t.sp = s.sp ∧
        t.wordAt s.sp.toNat = Config.fileInput s.inputsDrawn ∧
        SameRegistersBut s t [.pc] ∧ SameMemoryBut s t (OneWord s.sp) ∧
        t.output = s.output ∧ t.openFiles = s.openFiles ∧ t.status = s.status ∧ t.inputsDrawn = s.inputsDrawn + 1) ∧
    (¬ (ValidAddr s.sp ∧ s.wordAt s.sp.toNat ∈ s.openFiles) →
      readFromFile true s = .error (.unspecified (.service .readCharFromFile))) ∧
    readFromFile false s = .error (.unspecified (.service .readCharFromFile))

/-- R216, R217, R219 and R220, and for service 8 the row of R231 with D36: the services 6 to 10 raise `Fault(Unspecified)` in
every state. -/
def Obligations.FileServicesAreUnspecified : Prop :=
  ∀ (s : State) (svc : TrapService),
    svc ∈ [.openForReading, .openForWriting, .readCharFromFile, .writeCharToFile, .closeFile] →
    serve svc s = .error (.unspecified (.service svc))

-- The assembler and the loader.

/-- R84: the offset a branch's label argument assembles to takes the branch to the label, for `bra`, `bsr` and the two
conditional branches when they are taken. -/
def Obligations.BranchesLandOnTheirLabels : Prop :=
  ∀ (p target : Nat) (s t : State), s.pc = BitVec.ofNat 32 p →
    (exec (.bra (branchOffset p target)) s = .next t ∨ exec (.bsr (branchOffset p target)) s = .next t ∨
      (exec (.brf (branchOffset p target)) s = .next t ∧ s.wordAt s.sp.toNat = 0#32) ∨
      (exec (.brt (branchOffset p target)) s = .next t ∧ s.wordAt s.sp.toNat ≠ 0#32)) →
    t.pc = BitVec.ofNat 32 target

/-- R85 and R260: a loaded program's instructions lie in memory in text order, without gaps, from address 0: when PC is the
number of words before an executable instruction, that instruction is the one that is fetched. -/
def Obligations.LoadedProgramIsFetched : Prop :=
  ∀ (before after : List Instr) (i : Instr) (stackBase mpInit heapBase : Word) (s : State),
    boot stackBase mpInit heapBase (image (before ++ i :: after)) = some s → i.isMeta = false →
    s.pc = 0#32 ∧ s.sp = stackBase ∧ s.mp = mpInit ∧ s.hp = heapBase ∧ s.status = .running ∧
    State.fetchInstr { s with pc := BitVec.ofNat 32 (image before).length } = .ok i
end

