-- ==== Sys2Proof/Laws/State.lean ====
section
/-!
SUPPORT. What each named update of the state leaves in each field, and what each register read gives: one small lemma per
field per update, so that no later proof unfolds a record update.
-/

namespace Sys2Proof.Machine

-- Reading a register.
@[simp] theorem reg_pc (s : State) : s.reg .pc = s.pc := rfl
@[simp] theorem reg_sp (s : State) : s.reg .sp = s.sp := rfl
@[simp] theorem reg_mp (s : State) : s.reg .mp = s.mp := rfl
@[simp] theorem reg_hp (s : State) : s.reg .hp = s.hp := rfl
@[simp] theorem reg_rr (s : State) : s.reg .rr = s.rr := rfl
@[simp] theorem reg_r5 (s : State) : s.reg .r5 = s.r5 := rfl
@[simp] theorem reg_r6 (s : State) : s.reg .r6 = s.r6 := rfl
@[simp] theorem reg_r7 (s : State) : s.reg .r7 = s.r7 := rfl

-- The advance of PC.

@[simp] theorem advance_pc (s : State) (len : Word) : (s.advance len).pc = s.pc + len := rfl
@[simp] theorem advance_sp (s : State) (len : Word) : (s.advance len).sp = s.sp := rfl
@[simp] theorem advance_mp (s : State) (len : Word) : (s.advance len).mp = s.mp := rfl
@[simp] theorem advance_hp (s : State) (len : Word) : (s.advance len).hp = s.hp := rfl
@[simp] theorem advance_rr (s : State) (len : Word) : (s.advance len).rr = s.rr := rfl
@[simp] theorem advance_r5 (s : State) (len : Word) : (s.advance len).r5 = s.r5 := rfl
@[simp] theorem advance_r6 (s : State) (len : Word) : (s.advance len).r6 = s.r6 := rfl
@[simp] theorem advance_r7 (s : State) (len : Word) : (s.advance len).r7 = s.r7 := rfl
@[simp] theorem advance_mem (s : State) (len : Word) : (s.advance len).mem = s.mem := rfl
@[simp] theorem advance_status (s : State) (len : Word) : (s.advance len).status = s.status := rfl
@[simp] theorem advance_output (s : State) (len : Word) : (s.advance len).output = s.output := rfl
@[simp] theorem advance_openFiles (s : State) (len : Word) : (s.advance len).openFiles = s.openFiles := rfl
@[simp] theorem advance_inputsDrawn (s : State) (len : Word) : (s.advance len).inputsDrawn = s.inputsDrawn := rfl

@[simp] theorem following_eq (s : State) (len : Word) : s.following len = s.pc + len := rfl

-- A fault changes the status alone (spec/60_exceptions.md R231).

@[simp] theorem enterFaulted_pc (s : State) (f : Fault) : (s.enterFaulted f).pc = s.pc := rfl
@[simp] theorem enterFaulted_sp (s : State) (f : Fault) : (s.enterFaulted f).sp = s.sp := rfl
@[simp] theorem enterFaulted_mp (s : State) (f : Fault) : (s.enterFaulted f).mp = s.mp := rfl
@[simp] theorem enterFaulted_hp (s : State) (f : Fault) : (s.enterFaulted f).hp = s.hp := rfl
@[simp] theorem enterFaulted_rr (s : State) (f : Fault) : (s.enterFaulted f).rr = s.rr := rfl
@[simp] theorem enterFaulted_r5 (s : State) (f : Fault) : (s.enterFaulted f).r5 = s.r5 := rfl
@[simp] theorem enterFaulted_r6 (s : State) (f : Fault) : (s.enterFaulted f).r6 = s.r6 := rfl
@[simp] theorem enterFaulted_r7 (s : State) (f : Fault) : (s.enterFaulted f).r7 = s.r7 := rfl
@[simp] theorem enterFaulted_mem (s : State) (f : Fault) : (s.enterFaulted f).mem = s.mem := rfl
@[simp] theorem enterFaulted_status (s : State) (f : Fault) : (s.enterFaulted f).status = .faulted f := rfl
@[simp] theorem enterFaulted_output (s : State) (f : Fault) : (s.enterFaulted f).output = s.output := rfl
@[simp] theorem enterFaulted_openFiles (s : State) (f : Fault) : (s.enterFaulted f).openFiles = s.openFiles := rfl
@[simp] theorem enterFaulted_inputsDrawn (s : State) (f : Fault) : (s.enterFaulted f).inputsDrawn = s.inputsDrawn := rfl

-- A register write leaves memory, status and environment alone.

@[simp] theorem setReg_mem (s : State) (r : Reg) (v : Word) : (s.setReg r v).mem = s.mem := by
  cases r <;> rfl

@[simp] theorem setReg_status (s : State) (r : Reg) (v : Word) : (s.setReg r v).status = s.status := by
  cases r <;> rfl

@[simp] theorem setReg_output (s : State) (r : Reg) (v : Word) : (s.setReg r v).output = s.output := by
  cases r <;> rfl

@[simp] theorem setReg_openFiles (s : State) (r : Reg) (v : Word) : (s.setReg r v).openFiles = s.openFiles := by
  cases r <;> rfl

@[simp] theorem setReg_inputsDrawn (s : State) (r : Reg) (v : Word) : (s.setReg r v).inputsDrawn = s.inputsDrawn := by
  cases r <;> rfl

/-- The register written holds the word, every other register what it held (spec/10_state.md R12). -/
theorem setReg_reg (s : State) (r q : Reg) (v : Word) : (s.setReg r v).reg q = if q = r then v else s.reg q := by
  cases r <;> cases q <;> rfl

@[simp] theorem setReg_reg_same (s : State) (r : Reg) (v : Word) : (s.setReg r v).reg r = v := by
  cases r <;> rfl

theorem setReg_reg_other (s : State) (r q : Reg) (v : Word) (h : q ≠ r) : (s.setReg r v).reg q = s.reg q := by
  rw [setReg_reg, if_neg h]

@[simp] theorem setReg_wordAt (s : State) (r : Reg) (v : Word) (a : Nat) : (s.setReg r v).wordAt a = s.wordAt a := by
  cases r <;> rfl

@[simp] theorem advance_wordAt (s : State) (len : Word) (a : Nat) : (s.advance len).wordAt a = s.wordAt a := rfl

theorem advance_reg (s : State) (len : Word) (r : Reg) (h : r ≠ .pc) : (s.advance len).reg r = s.reg r := by
  cases r <;> first | rfl | exact absurd rfl h

-- Placing code for the next fetch.

@[simp] theorem withCode_pc (s : State) (ws : List Word) : (s.withCode ws).pc = s.placeForCode := rfl
@[simp] theorem withCode_sp (s : State) (ws : List Word) : (s.withCode ws).sp = s.sp := rfl
@[simp] theorem withCode_mp (s : State) (ws : List Word) : (s.withCode ws).mp = s.mp := rfl
@[simp] theorem withCode_hp (s : State) (ws : List Word) : (s.withCode ws).hp = s.hp := rfl
@[simp] theorem withCode_rr (s : State) (ws : List Word) : (s.withCode ws).rr = s.rr := rfl
@[simp] theorem withCode_r5 (s : State) (ws : List Word) : (s.withCode ws).r5 = s.r5 := rfl
@[simp] theorem withCode_r6 (s : State) (ws : List Word) : (s.withCode ws).r6 = s.r6 := rfl
@[simp] theorem withCode_r7 (s : State) (ws : List Word) : (s.withCode ws).r7 = s.r7 := rfl
@[simp] theorem withCode_mem (s : State) (ws : List Word) :
    (s.withCode ws).mem = s.mem.insertMany s.placeForCode.toNat ws := rfl
@[simp] theorem withCode_status (s : State) (ws : List Word) : (s.withCode ws).status = .running := rfl
@[simp] theorem withCode_output (s : State) (ws : List Word) : (s.withCode ws).output = s.output := rfl
@[simp] theorem withCode_openFiles (s : State) (ws : List Word) : (s.withCode ws).openFiles = s.openFiles := rfl
@[simp] theorem withCode_inputsDrawn (s : State) (ws : List Word) : (s.withCode ws).inputsDrawn = s.inputsDrawn := rfl

-- Outcomes.

@[simp] theorem finish_ok (t : State) : finish (.ok t) = .next t := rfl
@[simp] theorem finish_error (f : Fault) : finish (.error f) = .fault f := rfl

theorem finish_next_iff (r : Result State) (t : State) : finish r = .next t ↔ r = .ok t := by
  cases r <;> simp [finish]

theorem finish_fault_iff (r : Result State) (f : Fault) : finish r = .fault f ↔ r = .error f := by
  cases r <;> simp [finish]

theorem finish_not_refused (r : Result State) (w : Refusal) : finish r ≠ .refused w := by
  cases r <;> simp [finish]

@[simp] theorem settle_next (s t : State) : settle s (.next t) = .next t := rfl
@[simp] theorem settle_fault (s : State) (f : Fault) : settle s (.fault f) = .next (s.enterFaulted f) := rfl
@[simp] theorem settle_refused (s : State) (r : Refusal) : settle s (.refused r) = .refused r := rfl

end Sys2Proof.Machine
end

