-- ==== Sys2Proof/Laws/Memory.lean ====
section
/-!
SUPPORT. The laws of the memory: a read after a write, and the canonical form that every memory operation keeps
(spec/20_memory.md R41, R46).
-/

namespace Sys2Proof.Machine

/-- Reading one cell after a write: the word written at its own address, what was there at every other. -/
theorem lookup_insert (m : Memory) (a : Nat) (v : Word) (c : Nat) :
    Memory.lookup (Memory.insert m a v) c = if c = a then some v else Memory.lookup m c := by
  induction m with
  | nil => simp only [Memory.insert, Memory.lookup, eq_comm]
  | cons e m ih =>
    obtain ⟨b, u⟩ := e
    simp only [Memory.insert]
    split
    · simp only [Memory.lookup, @eq_comm _ a c]
    · split
      · subst_vars
        simp only [Memory.lookup]
        by_cases h : c = b
        · simp [h]
        · simp [h, Ne.symm h]
      · simp only [Memory.lookup, ih]
        by_cases h : b = c
        · have : c ≠ a := by omega
          simp [h, this]
        · simp [h]

/-- Reading one cell after a write of consecutive words. -/
theorem lookup_insertMany (vs : List Word) : ∀ (m : Memory) (a c : Nat),
    Memory.lookup (Memory.insertMany m a vs) c =
      if a ≤ c ∧ c < a + vs.length then vs[c - a]? else Memory.lookup m c := by
  induction vs with
  | nil => intro m a c; simp [Memory.insertMany]
  | cons v vs ih =>
    intro m a c
    simp only [Memory.insertMany, ih, lookup_insert, List.length_cons]
    by_cases h1 : c = a
    · subst h1; simp
    · by_cases h2 : a + 1 ≤ c ∧ c < a + 1 + vs.length
      · have h3 : a ≤ c ∧ c < a + (vs.length + 1) := by omega
        have h4 : c - a = (c - (a + 1)) + 1 := by omega
        simp only [h2, h3, and_self, if_true, h4, List.getElem?_cons_succ]
      · have h3 : ¬ (a ≤ c ∧ c < a + (vs.length + 1)) := by omega
        simp only [h2, h3, h1, if_false]

theorem insert_rising (m : Memory) (a : Nat) (v : Word) (h : m.Pairwise (fun x y => x.1 < y.1)) :
    (Memory.insert m a v).Pairwise (fun x y => x.1 < y.1) ∧
      ∀ c ∈ Memory.insert m a v, c.1 = a ∨ ∃ d ∈ m, d.1 = c.1 := by
  induction m with
  | nil => simp [Memory.insert]
  | cons e m ih =>
    obtain ⟨b, u⟩ := e
    rw [List.pairwise_cons] at h
    obtain ⟨ihp, ihm⟩ := ih h.2
    simp only [Memory.insert]
    split
    case isTrue hab =>
      refine ⟨List.pairwise_cons.2 ⟨?_, List.pairwise_cons.2 h⟩, ?_⟩
      · intro c hc
        rcases List.mem_cons.1 hc with rfl | hc
        · exact hab
        · exact Nat.lt_trans hab (h.1 c hc)
      · intro c hc
        rcases List.mem_cons.1 hc with rfl | hc
        · exact Or.inl rfl
        · exact Or.inr ⟨c, hc, rfl⟩
    case isFalse hab =>
      split
      case isTrue heq =>
        subst heq
        refine ⟨List.pairwise_cons.2 ⟨h.1, h.2⟩, ?_⟩
        intro c hc
        rcases List.mem_cons.1 hc with rfl | hc
        · exact Or.inl rfl
        · exact Or.inr ⟨c, List.mem_cons_of_mem _ hc, rfl⟩
      case isFalse hne =>
        refine ⟨List.pairwise_cons.2 ⟨?_, ihp⟩, ?_⟩
        · intro c hc
          rcases ihm c hc with hca | ⟨d, hd, hdc⟩
          · simp only [hca]; omega
          · rw [← hdc]; exact h.1 d hd
        · intro c hc
          rcases List.mem_cons.1 hc with rfl | hc
          · exact Or.inr ⟨(b, u), List.mem_cons_self, rfl⟩
          · rcases ihm c hc with hca | ⟨d, hd, hdc⟩
            · exact Or.inl hca
            · exact Or.inr ⟨d, List.mem_cons_of_mem _ hd, hdc⟩

/-- A write of one word that exists keeps the canonical form. -/
theorem insert_wf (m : Memory) (a : Nat) (v : Word) (h : m.wf) (ha : a < Config.memWords) :
    (Memory.insert m a v).wf := by
  obtain ⟨hp, hm⟩ := insert_rising m a v h.1
  refine ⟨hp, fun c hc => ?_⟩
  rcases hm c hc with hca | ⟨d, hd, hdc⟩
  · rw [hca]; exact ha
  · rw [← hdc]; exact h.2 d hd

/-- A write of consecutive words that exist keeps the canonical form. -/
theorem insertMany_wf (vs : List Word) : ∀ (m : Memory) (a : Nat), m.wf → a + vs.length ≤ Config.memWords →
    (Memory.insertMany m a vs).wf := by
  induction vs with
  | nil => intro m a h _; exact h
  | cons v vs ih =>
    intro m a h ha
    rw [List.length_cons] at ha
    exact ih _ _ (insert_wf m a v h (by omega)) (by omega)

/-- What a read gives after a write of one word. -/
theorem wordAt_insert (s : State) (a : Nat) (v : Word) (c : Nat) :
    State.wordAt { s with mem := s.mem.insert a v } c = if c = a then v else s.wordAt c := by
  simp only [State.wordAt, lookup_insert]
  split <;> simp

/-- What a read gives after a write of consecutive words. -/
theorem wordAt_insertMany (s : State) (a : Nat) (vs : List Word) (c : Nat) :
    State.wordAt { s with mem := s.mem.insertMany a vs } c =
      if a ≤ c ∧ c < a + vs.length then vs.getD (c - a) 0 else s.wordAt c := by
  simp only [State.wordAt, lookup_insertMany]
  split
  case isTrue h =>
    have : c - a < vs.length := by omega
    simp [List.getD, List.getElem?_eq_getElem this]
  case isFalse h => rfl

/-- A read looks at the memory alone. -/
theorem wordAt_congr (s t : State) (h : t.mem = s.mem) (a : Nat) : t.wordAt a = s.wordAt a := by
  simp only [State.wordAt, h]

end Sys2Proof.Machine
end

