-- ==== Sys2Proof/Laws/Ops.lean ====
section
/-!
SUPPORT. One lemma for each shared operation that says once everything it can do, so that proofs cite it and never unfold
the operation.
-/

namespace Sys2Proof.Machine

-- Reading and writing words (spec/20_memory.md R41).

theorem readWord_valid (s : State) (a : Word) (h : ValidAddr a) : s.readWord a = .ok (s.wordAt a.toNat) := if_pos h

theorem readWord_invalid (s : State) (a : Word) (h : ¬ ValidAddr a) :
    s.readWord a = .error (.memoryRange .read a) := if_neg h

theorem readWord_ok_iff (s : State) (a v : Word) :
    s.readWord a = .ok v ↔ ValidAddr a ∧ v = s.wordAt a.toNat := by
  by_cases h : ValidAddr a
  · rw [readWord_valid s a h]
    simp only [Except.ok.injEq, h, true_and]
    exact eq_comm
  · simp [readWord_invalid s a h, h]

theorem writeWord_valid (s : State) (a v : Word) (h : ValidAddr a) :
    s.writeWord a v = .ok { s with mem := s.mem.insert a.toNat v } := if_pos h

theorem writeWord_invalid (s : State) (a v : Word) (h : ¬ ValidAddr a) :
    s.writeWord a v = .error (.memoryRange .write a) := if_neg h

theorem writeWord_ok_iff (s t : State) (a v : Word) :
    s.writeWord a v = .ok t ↔ ValidAddr a ∧ t = { s with mem := s.mem.insert a.toNat v } := by
  by_cases h : ValidAddr a
  · rw [writeWord_valid s a v h]
    simp only [Except.ok.injEq, h, true_and]
    exact eq_comm
  · simp [writeWord_invalid s a v h, h]

theorem toNat_succ_of_valid (a : Word) (h : ValidAddr a) : (a + 1#32).toNat = a.toNat + 1 := by
  simp only [ValidAddr, Config.memWords] at h
  rw [BitVec.toNat_add]
  simp
  omega

theorem validBlock_succ (a : Word) (n : Nat) : ValidBlock a (n + 1) ↔ ValidAddr a ∧ ValidBlock (a + 1#32) n := by
  by_cases h : ValidAddr a
  · have e := toNat_succ_of_valid a h
    unfold ValidBlock ValidAddr
    unfold ValidAddr at h
    omega
  · unfold ValidBlock ValidAddr
    unfold ValidAddr at h
    omega

/-- A block that exists is read as its words, lowest address first. -/
theorem readWords_valid (s : State) : ∀ (n : Nat) (a : Word), ValidBlock a n →
    s.readWords n a = .ok ((List.range n).map (fun k => s.wordAt (a.toNat + k))) := by
  intro n
  induction n with
  | zero => intro a _; rfl
  | succ n ih =>
    intro a h
    obtain ⟨h1, h2⟩ := (validBlock_succ a n).1 h
    have e : ∀ k, a.toNat + 1 + k = a.toNat + (k + 1) := fun k => by omega
    simp only [State.readWords, readWord_valid s a h1, ih (a + 1#32) h2, bind, Except.bind,
      toNat_succ_of_valid a h1, List.range_succ_eq_map, List.map_cons, List.map_map, Nat.add_zero, e]
    rfl

/-- A block that does not exist stops at a word that does not exist. -/
theorem readWords_invalid (s : State) : ∀ (n : Nat) (a : Word), ¬ ValidBlock a n →
    ∃ x, ¬ ValidAddr x ∧ s.readWords n a = .error (.memoryRange .read x) := by
  intro n
  induction n with
  | zero => intro a h; exact absurd (Or.inl rfl) h
  | succ n ih =>
    intro a h
    by_cases h1 : ValidAddr a
    · obtain ⟨x, hx, e⟩ := ih (a + 1#32) (fun h2 => h ((validBlock_succ a n).2 ⟨h1, h2⟩))
      exact ⟨x, hx, by simp only [State.readWords, readWord_valid s a h1, e, bind, Except.bind]⟩
    · exact ⟨a, h1, by simp only [State.readWords, readWord_invalid s a h1, bind, Except.bind]⟩

theorem readWords_ok_iff (s : State) (n : Nat) (a : Word) (vs : List Word) :
    s.readWords n a = .ok vs ↔ ValidBlock a n ∧ vs = (List.range n).map (fun k => s.wordAt (a.toNat + k)) := by
  by_cases h : ValidBlock a n
  · rw [readWords_valid s n a h]
    simp only [Except.ok.injEq, h, true_and]
    exact eq_comm
  · obtain ⟨x, _, e⟩ := readWords_invalid s n a h
    simp [e, h]

/-- Words written to a block that exists. -/
theorem writeWords_valid (vs : List Word) : ∀ (s : State) (a : Word), ValidBlock a vs.length →
    s.writeWords a vs = .ok { s with mem := s.mem.insertMany a.toNat vs } := by
  induction vs with
  | nil => intro s a _; rfl
  | cons v vs ih =>
    intro s a h
    obtain ⟨h1, h2⟩ := (validBlock_succ a vs.length).1 h
    simp only [State.writeWords, writeWord_valid s a v h1, bind, Except.bind, ih _ _ h2,
      toNat_succ_of_valid a h1, Memory.insertMany]

/-- Words written to a block that does not exist stop at a word that does not exist. -/
theorem writeWords_invalid (vs : List Word) : ∀ (s : State) (a : Word), ¬ ValidBlock a vs.length →
    ∃ x, ¬ ValidAddr x ∧ s.writeWords a vs = .error (.memoryRange .write x) := by
  induction vs with
  | nil => intro s a h; exact absurd (Or.inl rfl) h
  | cons v vs ih =>
    intro s a h
    by_cases h1 : ValidAddr a
    · obtain ⟨x, hx, e⟩ := ih { s with mem := s.mem.insert a.toNat v } (a + 1#32)
        (fun h2 => h ((validBlock_succ a vs.length).2 ⟨h1, h2⟩))
      exact ⟨x, hx, by simp only [State.writeWords, writeWord_valid s a v h1, bind, Except.bind, e]⟩
    · exact ⟨a, h1, by simp only [State.writeWords, writeWord_invalid s a v h1, bind, Except.bind]⟩

theorem writeWords_ok_iff (s t : State) (a : Word) (vs : List Word) :
    s.writeWords a vs = .ok t ↔ ValidBlock a vs.length ∧ t = { s with mem := s.mem.insertMany a.toNat vs } := by
  by_cases h : ValidBlock a vs.length
  · rw [writeWords_valid vs s a h]
    simp only [Except.ok.injEq, h, true_and]
    exact eq_comm
  · obtain ⟨x, _, e⟩ := writeWords_invalid vs s a h
    simp [e, h]

-- Results in sequence.

/-- A sequence answers a value exactly when both its parts do. -/
theorem bind_ok_iff {α β : Type} (x : Result α) (f : α → Result β) (b : β) :
    (x >>= f) = .ok b ↔ ∃ a, x = .ok a ∧ f a = .ok b := by
  cases x <;> simp [bind, Except.bind]

@[simp] theorem bind_ok {α β : Type} (a : α) (f : α → Result β) :
    ((Except.ok a : Result α) >>= f) = f a := rfl

@[simp] theorem bind_error {α β : Type} (e : Fault) (f : α → Result β) :
    ((Except.error e : Result α) >>= f) = .error e := rfl

-- The shared movements.

/-- The two-operand template: both stack words exist, `f` answers a word, and it replaces the deeper one. -/
theorem binaryOp_ok_iff (f : Word → Word → Result Word) (s t : State) :
    binaryOp f s = .ok t ↔ ValidAddr s.sp ∧ ValidAddr (s.sp - 1#32) ∧
      ∃ r, f (s.wordAt (s.sp - 1#32).toNat) (s.wordAt s.sp.toNat) = .ok r ∧
        t = { s with mem := s.mem.insert (s.sp - 1#32).toNat r, sp := s.sp - 1#32, pc := s.pc + 1#32 } := by
  simp only [binaryOp, bind_ok_iff, readWord_ok_iff, writeWord_ok_iff, Except.ok.injEq, following_eq]
  constructor
  · rintro ⟨_, ⟨h1, rfl⟩, _, ⟨h2, rfl⟩, r, hr, _, ⟨_, rfl⟩, rfl⟩
    exact ⟨h1, h2, r, hr, rfl⟩
  · rintro ⟨h1, h2, r, hr, rfl⟩
    exact ⟨_, ⟨h1, rfl⟩, _, ⟨h2, rfl⟩, r, hr, _, ⟨h2, rfl⟩, rfl⟩

/-- The one-operand template: the top of the stack exists, `f` answers a word, and it replaces the top. -/
theorem replaceTop_ok_iff (len : Word) (f : Word → Result Word) (s t : State) :
    replaceTop len f s = .ok t ↔ ValidAddr s.sp ∧ ∃ r, f (s.wordAt s.sp.toNat) = .ok r ∧
      t = { s with mem := s.mem.insert s.sp.toNat r, pc := s.pc + len } := by
  simp only [replaceTop, bind_ok_iff, readWord_ok_iff, writeWord_ok_iff, Except.ok.injEq, following_eq]
  constructor
  · rintro ⟨_, ⟨h1, rfl⟩, r, hr, _, ⟨_, rfl⟩, rfl⟩
    exact ⟨h1, r, hr, rfl⟩
  · rintro ⟨h1, r, hr, rfl⟩
    exact ⟨_, ⟨h1, rfl⟩, r, hr, _, ⟨h1, rfl⟩, rfl⟩

/-- A push: the first free word exists and holds the pushed word. -/
theorem pushWord_ok_iff (len v : Word) (s t : State) :
    pushWord len v s = .ok t ↔ ValidAddr (s.sp + 1#32) ∧
      t = { s with mem := s.mem.insert (s.sp + 1#32).toNat v, sp := s.sp + 1#32, pc := s.pc + len } := by
  simp only [pushWord, bind_ok_iff, writeWord_ok_iff, Except.ok.injEq, following_eq]
  constructor
  · rintro ⟨_, ⟨h1, rfl⟩, rfl⟩
    exact ⟨h1, rfl⟩
  · rintro ⟨h1, rfl⟩
    exact ⟨_, ⟨h1, rfl⟩, rfl⟩

/-- A pop: the top of the stack exists and is handed on. -/
theorem popWord_ok_iff (len : Word) (use : Word → State → State) (s t : State) :
    popWord len use s = .ok t ↔ ValidAddr s.sp ∧
      t = use (s.wordAt s.sp.toNat) { s with sp := s.sp - 1#32, pc := s.pc + len } := by
  simp only [popWord, bind_ok_iff, readWord_ok_iff, Except.ok.injEq, following_eq]
  constructor
  · rintro ⟨_, ⟨h1, rfl⟩, rfl⟩
    exact ⟨h1, rfl⟩
  · rintro ⟨h1, rfl⟩
    exact ⟨_, ⟨h1, rfl⟩, rfl⟩

/-- A store of the top of the stack: it exists, and so does the word it goes to. -/
theorem storeTop_ok_iff (len dst : Word) (s t : State) :
    storeTop len dst s = .ok t ↔ ValidAddr s.sp ∧ ValidAddr dst ∧
      t = { s with mem := s.mem.insert dst.toNat (s.wordAt s.sp.toNat), sp := s.sp - 1#32, pc := s.pc + len } := by
  simp only [storeTop, bind_ok_iff, readWord_ok_iff, writeWord_ok_iff, Except.ok.injEq, following_eq]
  constructor
  · rintro ⟨_, ⟨h1, rfl⟩, _, ⟨h2, rfl⟩, rfl⟩
    exact ⟨h1, h2, rfl⟩
  · rintro ⟨h1, h2, rfl⟩
    exact ⟨_, ⟨h1, rfl⟩, _, ⟨h2, rfl⟩, rfl⟩

/-- A push of the word at `src`: that word and the first free word exist. -/
theorem pushFrom_ok_iff (len src : Word) (s t : State) :
    pushFrom len src s = .ok t ↔ ValidAddr src ∧ ValidAddr (s.sp + 1#32) ∧
      t = { s with
        mem := s.mem.insert (s.sp + 1#32).toNat (s.wordAt src.toNat), sp := s.sp + 1#32, pc := s.pc + len } := by
  simp only [pushFrom, bind_ok_iff, readWord_ok_iff, pushWord_ok_iff]
  constructor
  · rintro ⟨_, ⟨h1, rfl⟩, h2, rfl⟩
    exact ⟨h1, h2, rfl⟩
  · rintro ⟨h1, h2, rfl⟩
    exact ⟨_, ⟨h1, rfl⟩, h2, rfl⟩

/-- The words of a block, as they are before the instruction. -/
def blockWords (s : State) (src : Word) (n : Nat) : List Word :=
  (List.range n).map (fun k => s.wordAt (src.toNat + k))

@[simp] theorem blockWords_length (s : State) (src : Word) (n : Nat) : (blockWords s src n).length = n := by
  simp [blockWords]

theorem blockWords_getD (s : State) (src : Word) (n k : Nat) (h : k < n) :
    (blockWords s src n).getD k 0 = s.wordAt (src.toNat + k) := by
  simp [blockWords, List.getD, h]

/-- A block move: both blocks exist, and the words of the source block stand in the destination block. -/
theorem moveBlock_ok_iff (len : Word) (n : Nat) (src dst sp' : Word) (s t : State) :
    moveBlock len n src dst sp' s = .ok t ↔ ValidBlock src n ∧ ValidBlock dst n ∧
      t = { s with mem := s.mem.insertMany dst.toNat (blockWords s src n), sp := sp', pc := s.pc + len } := by
  simp only [moveBlock, bind_ok_iff, readWords_ok_iff, writeWords_ok_iff, Except.ok.injEq, following_eq]
  constructor
  · rintro ⟨_, ⟨h1, rfl⟩, _, ⟨h2, rfl⟩, rfl⟩
    exact ⟨h1, by simpa using h2, rfl⟩
  · rintro ⟨h1, h2, rfl⟩
    exact ⟨_, ⟨h1, rfl⟩, _, ⟨by simpa using h2, rfl⟩, rfl⟩

/-- A block move from a block that does not exist stops at a read. -/
theorem moveBlock_bad_source (len : Word) (n : Nat) (src dst sp' : Word) (s : State) (h : ¬ ValidBlock src n) :
    ∃ x, ¬ ValidAddr x ∧ moveBlock len n src dst sp' s = .error (.memoryRange .read x) := by
  obtain ⟨x, hx, e⟩ := readWords_invalid s n src h
  exact ⟨x, hx, by simp only [moveBlock, e, bind_error]⟩

/-- A block move to a block that does not exist stops at a write. -/
theorem moveBlock_bad_destination (len : Word) (n : Nat) (src dst sp' : Word) (s : State) (h1 : ValidBlock src n)
    (h2 : ¬ ValidBlock dst n) :
    ∃ x, ¬ ValidAddr x ∧ moveBlock len n src dst sp' s = .error (.memoryRange .write x) := by
  obtain ⟨x, hx, e⟩ := writeWords_invalid (blockWords s src n) s dst (by simpa using h2)
  exact ⟨x, hx, by simp only [moveBlock, readWords_valid s n src h1, bind_ok]; rw [← blockWords, e, bind_error]⟩

-- Operands.

@[simp] theorem regOperand_registerNumber (r : Reg) : regOperand (registerNumber r) = .ok r := by
  cases r <;> rfl

theorem regOfNumber_some_iff (w : Word) (r : Reg) : regOfNumber w = some r ↔ w = registerNumber r := by
  constructor
  · intro h
    unfold regOfNumber at h
    have key : ∀ n : Nat, ∀ v : Word, v.toNat = n → w.toNat = n → w = v :=
      fun n v hv hw => BitVec.eq_of_toNat_eq (by omega)
    split at h <;> simp only [Option.some.injEq, reduceCtorEq] at h <;> subst h <;>
      exact key _ _ rfl (by assumption)
  · rintro rfl
    cases r <;> rfl

theorem regOperand_ok_iff (w : Word) (r : Reg) : regOperand w = .ok r ↔ w = registerNumber r := by
  rw [← regOfNumber_some_iff]
  unfold regOperand
  split <;> simp_all [raise]

theorem regOfNumber_outside (w : Word) (h : 7 < w.toNat) : regOfNumber w = none := by
  unfold regOfNumber
  split <;> simp_all

theorem regOperand_outside (w : Word) (h : 7 < w.toNat) : regOperand w = .error (.registerNumber w) := by
  simp only [regOperand, regOfNumber_outside w h, raise]

theorem sizeOperand_valid (w : Word) (h : 0 ≤ w.toInt) : sizeOperand w = .ok w.toNat := if_neg (by omega)

theorem sizeOperand_negative (w : Word) (h : w.toInt < 0) : sizeOperand w = .error (.operandRange w) := if_pos h

theorem sizeOperand_ok_iff (w : Word) (n : Nat) : sizeOperand w = .ok n ↔ 0 ≤ w.toInt ∧ n = w.toNat := by
  by_cases h : w.toInt < 0
  · simp only [sizeOperand_negative w h, reduceCtorEq, false_iff]
    omega
  · rw [sizeOperand_valid w (by omega)]
    simp only [Except.ok.injEq]
    constructor
    · rintro rfl; exact ⟨by omega, rfl⟩
    · rintro ⟨_, rfl⟩; rfl

-- The services of `trap`.

/-- A print: the top of the stack exists, is popped and becomes an event. -/
theorem printWord_ok_iff (event : Word → OutputEvent) (s t : State) :
    printWord event s = .ok t ↔ ValidAddr s.sp ∧
      t = { s with sp := s.sp - 1#32, pc := s.pc + 2#32, output := s.output ++ [event (s.wordAt s.sp.toNat)] } :=
  popWord_ok_iff _ _ _ _

/-- An input: the first free word exists and holds the next answer. -/
theorem pushInput_ok_iff (answer : Nat → Word) (s t : State) :
    pushInput answer s = .ok t ↔ ValidAddr (s.sp + 1#32) ∧
      t = { s with
        mem := s.mem.insert (s.sp + 1#32).toNat (answer s.inputsDrawn)
        sp := s.sp + 1#32
        pc := s.pc + 2#32
        inputsDrawn := s.inputsDrawn + 1 } := by
  simp only [pushInput, bind_ok_iff, pushWord_ok_iff, Except.ok.injEq]
  constructor
  · rintro ⟨_, ⟨h, rfl⟩, rfl⟩; exact ⟨h, rfl⟩
  · rintro ⟨h, rfl⟩; exact ⟨_, ⟨h, rfl⟩, rfl⟩

@[simp] theorem sequenceWords_length (layout : Config.SequenceLayout) (cs : List Word) :
    (sequenceWords layout cs).length = cs.length + 1 := by
  cases layout <;> simp [sequenceWords]

/-- A character sequence: the words it needs exist and hold it. -/
theorem pushSequence_ok_iff (layout : Config.SequenceLayout) (s t : State) :
    pushSequence layout s = .ok t ↔
      ValidBlock (s.sp + 1#32) ((Config.inputSequence s.inputsDrawn).length + 1) ∧
      t = { s with
        mem := s.mem.insertMany (s.sp + 1#32).toNat (sequenceWords layout (Config.inputSequence s.inputsDrawn))
        sp := s.sp + BitVec.ofNat 32 ((Config.inputSequence s.inputsDrawn).length + 1)
        pc := s.pc + 2#32
        inputsDrawn := s.inputsDrawn + 1 } := by
  simp only [pushSequence, bind_ok_iff, writeWords_ok_iff, Except.ok.injEq, following_eq, sequenceWords_length]
  constructor
  · rintro ⟨_, ⟨h, rfl⟩, rfl⟩; exact ⟨h, rfl⟩
  · rintro ⟨h, rfl⟩; exact ⟨_, ⟨h, rfl⟩, rfl⟩

/-- Service 5 runs exactly with the layout that its configuration gives. -/
theorem readSequence_ok_iff (layout : Option Config.SequenceLayout) (s t : State) :
    readSequence layout s = .ok t ↔ ∃ l, layout = some l ∧ pushSequence l s = .ok t := by
  cases layout <;> simp [readSequence, raise]

/-- A read from a file is refused where it is not implemented or the top of the stack is no open file pointer. -/
theorem readFromFile_refused (implemented : Bool) (s : State) (h : ¬ (implemented = true ∧ s.topIsOpenFile)) :
    readFromFile implemented s = .error (.unspecified (.service .readCharFromFile)) := if_neg h

/-- A read from a file: the word on top is the file pointer of an open file and is replaced by what was read. -/
theorem readFromFile_ok_iff (implemented : Bool) (s t : State) :
    readFromFile implemented s = .ok t ↔ (implemented = true ∧ s.topIsOpenFile) ∧
      t = { s with
        mem := s.mem.insert s.sp.toNat (Config.fileInput s.inputsDrawn)
        pc := s.pc + 2#32
        inputsDrawn := s.inputsDrawn + 1 } := by
  by_cases h : implemented = true ∧ s.topIsOpenFile
  · rw [readFromFile, if_pos h, writeWord_valid _ _ _ h.2.1]
    simp only [bind_ok, Except.ok.injEq, following_eq]
    exact ⟨fun e => ⟨h, e.symm⟩, fun e => e.2.symm⟩
  · rw [readFromFile_refused implemented s h]
    exact ⟨(by simp), fun e => absurd e.1 h⟩

-- Fetching.

theorem fetchWord_written (s : State) (a v : Word) (h : ValidAddr a) (hv : Memory.lookup s.mem a.toNat = some v) :
    s.fetchWord a = .ok v := by
  simp only [State.fetchWord, if_pos h, hv]

theorem fetchWord_unwritten (s : State) (a : Word) (h : ValidAddr a) (hv : Memory.lookup s.mem a.toNat = none) :
    s.fetchWord a = .error (.refused (.fetchUnwritten a)) := by
  simp only [State.fetchWord, if_pos h, hv]

theorem fetchWord_outside (s : State) (a : Word) (h : ¬ ValidAddr a) :
    s.fetchWord a = .error (.fault (.memoryRange .fetch a)) := if_neg h

-- The step.

/-- A running machine that fetches an instruction runs it. -/
theorem step_of_fetched (s : State) (i : Instr) (hs : s.status = .running) (hf : s.fetchInstr = .ok i) :
    step s = settle s (exec i s) := by
  simp only [step, hs, hf]

/-- Everything a step that answers a next state can be: a stutter of a halted machine, an instruction that completed, or a
fault that left all but the status. -/
theorem step_next_cases (s t : State) (h : step s = .next t) :
    (s.status = .halted ∧ t = s) ∨
    (s.status = .running ∧ ∃ i, s.fetchInstr = .ok i ∧ exec i s = .next t) ∨
    (s.status = .running ∧ ∃ f, t = s.enterFaulted f) := by
  unfold step at h
  split at h
  case h_1 hs => exact Or.inl ⟨hs, by simpa [haltedOutcome, eq_comm] using h⟩
  case h_2 => simp [faultedOutcome] at h
  case h_3 hs =>
    split at h
    case h_1 i hf =>
      generalize ho : exec i s = o at h
      cases o with
      | next u => exact Or.inr (Or.inl ⟨hs, i, hf, by simpa using h ▸ ho⟩)
      | fault f => exact Or.inr (Or.inr ⟨hs, f, by simpa [eq_comm] using h⟩)
      | refused r => simp at h
    case h_2 f _ => exact Or.inr (Or.inr ⟨hs, f, by simpa [eq_comm] using h⟩)
    case h_3 => simp at h

end Sys2Proof.Machine
end

