-- ==== Sys2Proof/Laws/PerInstr.lean ====
section
/-!
SUPPORT. Laws stated instruction by instruction. `EncodedLength`: the encoder and the opcode map agree on every
instruction's opcode word and length (spec/30_encoding.md R70, R74); `annote` alone has no words (R76).
-/

namespace Sys2Proof.Laws

/-- An instruction's words begin with the code of a row of the opcode map that bears its mnemonic, and are one more than
that row's inline operands; the meta instruction has none. -/
def EncodedLength.Statement (i : Instr) : Prop :=
  (i.isMeta = true ∧ encode i = []) ∨
  (i.isMeta = false ∧ ∃ op row, (encode i).head? = some op ∧ lookupOpcode op = some row ∧
    (encode i).length = 1 + row.shape.inlineOperands)

theorem EncodedLength.add : EncodedLength.Statement .add :=
  Or.inr ⟨rfl, _, _, rfl, rfl, rfl⟩

theorem EncodedLength.and : EncodedLength.Statement .and :=
  Or.inr ⟨rfl, _, _, rfl, rfl, rfl⟩

theorem EncodedLength.div : EncodedLength.Statement .div :=
  Or.inr ⟨rfl, _, _, rfl, rfl, rfl⟩

theorem EncodedLength.mod : EncodedLength.Statement .mod :=
  Or.inr ⟨rfl, _, _, rfl, rfl, rfl⟩

theorem EncodedLength.mul : EncodedLength.Statement .mul :=
  Or.inr ⟨rfl, _, _, rfl, rfl, rfl⟩

theorem EncodedLength.or : EncodedLength.Statement .or :=
  Or.inr ⟨rfl, _, _, rfl, rfl, rfl⟩

theorem EncodedLength.sub : EncodedLength.Statement .sub :=
  Or.inr ⟨rfl, _, _, rfl, rfl, rfl⟩

theorem EncodedLength.xor : EncodedLength.Statement .xor :=
  Or.inr ⟨rfl, _, _, rfl, rfl, rfl⟩

theorem EncodedLength.eq : EncodedLength.Statement .eq :=
  Or.inr ⟨rfl, _, _, rfl, rfl, rfl⟩

theorem EncodedLength.ne : EncodedLength.Statement .ne :=
  Or.inr ⟨rfl, _, _, rfl, rfl, rfl⟩

theorem EncodedLength.lt : EncodedLength.Statement .lt :=
  Or.inr ⟨rfl, _, _, rfl, rfl, rfl⟩

theorem EncodedLength.gt : EncodedLength.Statement .gt :=
  Or.inr ⟨rfl, _, _, rfl, rfl, rfl⟩

theorem EncodedLength.le : EncodedLength.Statement .le :=
  Or.inr ⟨rfl, _, _, rfl, rfl, rfl⟩

theorem EncodedLength.ge : EncodedLength.Statement .ge :=
  Or.inr ⟨rfl, _, _, rfl, rfl, rfl⟩

theorem EncodedLength.neg : EncodedLength.Statement .neg :=
  Or.inr ⟨rfl, _, _, rfl, rfl, rfl⟩

theorem EncodedLength.not : EncodedLength.Statement .not :=
  Or.inr ⟨rfl, _, _, rfl, rfl, rfl⟩

theorem EncodedLength.ajs (a : Word) : EncodedLength.Statement (.ajs a) :=
  Or.inr ⟨rfl, _, _, rfl, rfl, rfl⟩

theorem EncodedLength.bra (a : Word) : EncodedLength.Statement (.bra a) :=
  Or.inr ⟨rfl, _, _, rfl, rfl, rfl⟩

theorem EncodedLength.brf (a : Word) : EncodedLength.Statement (.brf a) :=
  Or.inr ⟨rfl, _, _, rfl, rfl, rfl⟩

theorem EncodedLength.brt (a : Word) : EncodedLength.Statement (.brt a) :=
  Or.inr ⟨rfl, _, _, rfl, rfl, rfl⟩

theorem EncodedLength.bsr (a : Word) : EncodedLength.Statement (.bsr a) :=
  Or.inr ⟨rfl, _, _, rfl, rfl, rfl⟩

theorem EncodedLength.halt : EncodedLength.Statement .halt :=
  Or.inr ⟨rfl, _, _, rfl, rfl, rfl⟩

theorem EncodedLength.jsr : EncodedLength.Statement .jsr :=
  Or.inr ⟨rfl, _, _, rfl, rfl, rfl⟩

theorem EncodedLength.lda (a : Word) : EncodedLength.Statement (.lda a) :=
  Or.inr ⟨rfl, _, _, rfl, rfl, rfl⟩

theorem EncodedLength.ldma (a b : Word) : EncodedLength.Statement (.ldma a b) :=
  Or.inr ⟨rfl, _, _, rfl, rfl, rfl⟩

theorem EncodedLength.ldaa (a : Word) : EncodedLength.Statement (.ldaa a) :=
  Or.inr ⟨rfl, _, _, rfl, rfl, rfl⟩

theorem EncodedLength.ldc (a : Word) : EncodedLength.Statement (.ldc a) :=
  Or.inr ⟨rfl, _, _, rfl, rfl, rfl⟩

theorem EncodedLength.ldl (a : Word) : EncodedLength.Statement (.ldl a) :=
  Or.inr ⟨rfl, _, _, rfl, rfl, rfl⟩

theorem EncodedLength.ldml (a b : Word) : EncodedLength.Statement (.ldml a b) :=
  Or.inr ⟨rfl, _, _, rfl, rfl, rfl⟩

theorem EncodedLength.ldla (a : Word) : EncodedLength.Statement (.ldla a) :=
  Or.inr ⟨rfl, _, _, rfl, rfl, rfl⟩

theorem EncodedLength.ldr (a : Word) : EncodedLength.Statement (.ldr a) :=
  Or.inr ⟨rfl, _, _, rfl, rfl, rfl⟩

theorem EncodedLength.ldrr (a b : Word) : EncodedLength.Statement (.ldrr a b) :=
  Or.inr ⟨rfl, _, _, rfl, rfl, rfl⟩

theorem EncodedLength.lds (a : Word) : EncodedLength.Statement (.lds a) :=
  Or.inr ⟨rfl, _, _, rfl, rfl, rfl⟩

theorem EncodedLength.ldms (a b : Word) : EncodedLength.Statement (.ldms a b) :=
  Or.inr ⟨rfl, _, _, rfl, rfl, rfl⟩

theorem EncodedLength.ldsa (a : Word) : EncodedLength.Statement (.ldsa a) :=
  Or.inr ⟨rfl, _, _, rfl, rfl, rfl⟩

theorem EncodedLength.link (a : Word) : EncodedLength.Statement (.link a) :=
  Or.inr ⟨rfl, _, _, rfl, rfl, rfl⟩

theorem EncodedLength.nop : EncodedLength.Statement .nop :=
  Or.inr ⟨rfl, _, _, rfl, rfl, rfl⟩

theorem EncodedLength.ret : EncodedLength.Statement .ret :=
  Or.inr ⟨rfl, _, _, rfl, rfl, rfl⟩

theorem EncodedLength.sta (a : Word) : EncodedLength.Statement (.sta a) :=
  Or.inr ⟨rfl, _, _, rfl, rfl, rfl⟩

theorem EncodedLength.stma (a b : Word) : EncodedLength.Statement (.stma a b) :=
  Or.inr ⟨rfl, _, _, rfl, rfl, rfl⟩

theorem EncodedLength.stl (a : Word) : EncodedLength.Statement (.stl a) :=
  Or.inr ⟨rfl, _, _, rfl, rfl, rfl⟩

theorem EncodedLength.stml (a b : Word) : EncodedLength.Statement (.stml a b) :=
  Or.inr ⟨rfl, _, _, rfl, rfl, rfl⟩

theorem EncodedLength.str (a : Word) : EncodedLength.Statement (.str a) :=
  Or.inr ⟨rfl, _, _, rfl, rfl, rfl⟩

theorem EncodedLength.sts (a : Word) : EncodedLength.Statement (.sts a) :=
  Or.inr ⟨rfl, _, _, rfl, rfl, rfl⟩

theorem EncodedLength.stms (a b : Word) : EncodedLength.Statement (.stms a b) :=
  Or.inr ⟨rfl, _, _, rfl, rfl, rfl⟩

theorem EncodedLength.swp : EncodedLength.Statement .swp :=
  Or.inr ⟨rfl, _, _, rfl, rfl, rfl⟩

theorem EncodedLength.swpr (a : Word) : EncodedLength.Statement (.swpr a) :=
  Or.inr ⟨rfl, _, _, rfl, rfl, rfl⟩

theorem EncodedLength.swprr (a b : Word) : EncodedLength.Statement (.swprr a b) :=
  Or.inr ⟨rfl, _, _, rfl, rfl, rfl⟩

theorem EncodedLength.trap (a : Word) : EncodedLength.Statement (.trap a) :=
  Or.inr ⟨rfl, _, _, rfl, rfl, rfl⟩

theorem EncodedLength.unlink : EncodedLength.Statement .unlink :=
  Or.inr ⟨rfl, _, _, rfl, rfl, rfl⟩

theorem EncodedLength.ldh (a : Word) : EncodedLength.Statement (.ldh a) :=
  Or.inr ⟨rfl, _, _, rfl, rfl, rfl⟩

theorem EncodedLength.ldmh (a b : Word) : EncodedLength.Statement (.ldmh a b) :=
  Or.inr ⟨rfl, _, _, rfl, rfl, rfl⟩

theorem EncodedLength.sth : EncodedLength.Statement .sth :=
  Or.inr ⟨rfl, _, _, rfl, rfl, rfl⟩

theorem EncodedLength.stmh (a : Word) : EncodedLength.Statement (.stmh a) :=
  Or.inr ⟨rfl, _, _, rfl, rfl, rfl⟩

theorem EncodedLength.annote (reg : Reg) (low high : Word) (color : Color) (text : String) :
    EncodedLength.Statement (.annote reg low high color text) := Or.inl ⟨rfl, rfl⟩

end Sys2Proof.Laws
end

