-- ==== Sys2Proof/Tests/Slice0.lean ====
section
/-!
SUPPORT. Tests of the model: the checks of WellFormed, one decoding per constructor from words written out from
spec/30_encoding.md R74 and section 7, single steps with the values of spec/95_test_vectors.md, and for each obligation
states that meet its hypotheses.
-/

namespace Sys2Proof.Tests

open Sys2Proof Sys2Proof.Machine

-- Small states.

/-- The words `first`, `first + 1`, ... -/
def countFrom (first : Nat) (n : Nat) : List Word := (List.range n).map (fun i => BitVec.ofNat 32 (first + i))

/-- State B of spec/95_test_vectors.md section 0, with no instruction loaded. -/
def stateB : State := { State.reset with
  sp := 110#32, mp := 105#32, hp := 1500#32, rr := 77#32, r5 := 55#32, r6 := 66#32, r7 := 88#32
  mem := Memory.insertMany (Memory.insertMany [] 100 (countFrom 200 11)) 200 (countFrom 7000 16) }

/-- The start state of spec/95_test_vectors.md section 2.1: two words on the stack, `v2` on top. -/
def pair (v1 v2 : Word) : State := { State.reset with sp := 101#32, mem := [(100, v1), (101, v2)] }

/-- The start state of spec/95_test_vectors.md section 2.3: an instruction at 10 and one word on the stack. -/
def condition (c : Word) : State := { State.reset with pc := 10#32, sp := 101#32, mem := [(101, c)] }

/-- A state with SP at `n` and the word `v` there. -/
def atSP (n v : Word) : State := { State.reset with sp := n, mem := [(n.toNat, v)] }

/-- A running state with PC at `n` and the words `ws` there. -/
def codeAt (n : Word) (ws : List Word) : State := { State.reset with pc := n, mem := Memory.insertMany [] n.toNat ws }

/-- The state an instruction leaves, where it completes. -/
def after (i : Instr) (s : State) : Option State :=
  match exec i s with
  | .next t => some t
  | .fault _ => none
  | .refused _ => none

/-- The state a step leaves, where it answers one. -/
def afterStep (s : State) : Option State :=
  match step s with
  | .next t => some t
  | .fault _ => none
  | .refused _ => none

/-- Registers 0 to 7 of the state an instruction leaves. -/
def regsAfter (i : Instr) (s : State) : Option (List Word) :=
  (after i s).map (fun t => [t.pc, t.sp, t.mp, t.hp, t.rr, t.r5, t.r6, t.r7])

/-- The fault an instruction raises. -/
def faultOf (i : Instr) (s : State) : Option Fault :=
  match exec i s with
  | .next _ => none
  | .fault f => some f
  | .refused _ => none

/-- PC, SP and the words at the addresses `as` of the state an instruction leaves. -/
def seen (i : Instr) (s : State) (as : List Nat) : Option (Word × Word × List Word) :=
  (after i s).map (fun t => (t.pc, t.sp, as.map t.wordAt))

-- WellFormed refuses an ill-formed term for each of its checks (spec/30_encoding.md R73).

theorem test_ill_formed_ldr : Instr.wellFormed (.ldr 8#32) = false := by decide

theorem test_ill_formed_ldrr_first : Instr.wellFormed (.ldrr 8#32 1#32) = false := by decide

theorem test_ill_formed_ldrr_second : Instr.wellFormed (.ldrr 1#32 8#32) = false := by decide

theorem test_ill_formed_str : Instr.wellFormed (.str 0xFFFFFFFF#32) = false := by decide

theorem test_ill_formed_swpr : Instr.wellFormed (.swpr 8#32) = false := by decide

theorem test_ill_formed_swprr_first : Instr.wellFormed (.swprr 8#32 1#32) = false := by decide

theorem test_ill_formed_swprr_second : Instr.wellFormed (.swprr 1#32 8#32) = false := by decide

theorem test_ill_formed_ldma : Instr.wellFormed (.ldma 0#32 0xFFFFFFFF#32) = false := by decide

theorem test_ill_formed_ldml : Instr.wellFormed (.ldml 0#32 0x80000000#32) = false := by decide

theorem test_ill_formed_ldms : Instr.wellFormed (.ldms 0#32 0xFFFFFFFF#32) = false := by decide

theorem test_ill_formed_ldmh : Instr.wellFormed (.ldmh 0#32 0xFFFFFFFF#32) = false := by decide

theorem test_ill_formed_stma : Instr.wellFormed (.stma 0#32 0xFFFFFFFF#32) = false := by decide

theorem test_ill_formed_stml : Instr.wellFormed (.stml 0#32 0xFFFFFFFE#32) = false := by decide

theorem test_ill_formed_stms : Instr.wellFormed (.stms 0#32 0xFFFFFFFF#32) = false := by decide

theorem test_ill_formed_stmh : Instr.wellFormed (.stmh 0xFFFFFFFF#32) = false := by decide

theorem test_well_formed_boundaries :
    (Instr.ldr 7#32).wellFormed = true ∧ (Instr.stmh 0#32).wellFormed = true ∧ (Instr.ldma 0#32
    0x7FFFFFFF#32).wellFormed = true := by decide

-- One decoding per constructor, the words written out from spec/30_encoding.md R74; the operands are 5 and 6, and a
-- following word is left over.

theorem test_decode_add : decode [0x00000001#32, 9#32] = .ok (.add, [9#32]) := rfl

theorem test_decode_and : decode [0x00000002#32, 9#32] = .ok (.and, [9#32]) := rfl

theorem test_decode_div : decode [0x00000004#32, 9#32] = .ok (.div, [9#32]) := rfl

theorem test_decode_mod : decode [0x00000007#32, 9#32] = .ok (.mod, [9#32]) := rfl

theorem test_decode_mul : decode [0x00000008#32, 9#32] = .ok (.mul, [9#32]) := rfl

theorem test_decode_or : decode [0x00000009#32, 9#32] = .ok (.or, [9#32]) := rfl

theorem test_decode_sub : decode [0x0000000c#32, 9#32] = .ok (.sub, [9#32]) := rfl

theorem test_decode_xor : decode [0x0000000d#32, 9#32] = .ok (.xor, [9#32]) := rfl

theorem test_decode_eq : decode [0x0000000e#32, 9#32] = .ok (.eq, [9#32]) := rfl

theorem test_decode_ne : decode [0x0000000f#32, 9#32] = .ok (.ne, [9#32]) := rfl

theorem test_decode_lt : decode [0x00000010#32, 9#32] = .ok (.lt, [9#32]) := rfl

theorem test_decode_gt : decode [0x00000011#32, 9#32] = .ok (.gt, [9#32]) := rfl

theorem test_decode_le : decode [0x00000012#32, 9#32] = .ok (.le, [9#32]) := rfl

theorem test_decode_ge : decode [0x00000013#32, 9#32] = .ok (.ge, [9#32]) := rfl

theorem test_decode_neg : decode [0x00000020#32, 9#32] = .ok (.neg, [9#32]) := rfl

theorem test_decode_not : decode [0x00000021#32, 9#32] = .ok (.not, [9#32]) := rfl

theorem test_decode_halt : decode [0x00000074#32, 9#32] = .ok (.halt, [9#32]) := rfl

theorem test_decode_jsr : decode [0x00000078#32, 9#32] = .ok (.jsr, [9#32]) := rfl

theorem test_decode_nop : decode [0x000000a4#32, 9#32] = .ok (.nop, [9#32]) := rfl

theorem test_decode_ret : decode [0x000000a8#32, 9#32] = .ok (.ret, [9#32]) := rfl

theorem test_decode_swp : decode [0x000000bc#32, 9#32] = .ok (.swp, [9#32]) := rfl

theorem test_decode_unlink : decode [0x000000cc#32, 9#32] = .ok (.unlink, [9#32]) := rfl

theorem test_decode_sth : decode [0x000000d6#32, 9#32] = .ok (.sth, [9#32]) := rfl

theorem test_decode_ajs : decode [0x00000064#32, 5#32, 9#32] = .ok (.ajs 5#32, [9#32]) := rfl

theorem test_decode_bra : decode [0x00000068#32, 5#32, 9#32] = .ok (.bra 5#32, [9#32]) := rfl

theorem test_decode_brf : decode [0x0000006c#32, 5#32, 9#32] = .ok (.brf 5#32, [9#32]) := rfl

theorem test_decode_brt : decode [0x0000006d#32, 5#32, 9#32] = .ok (.brt 5#32, [9#32]) := rfl

theorem test_decode_bsr : decode [0x00000070#32, 5#32, 9#32] = .ok (.bsr 5#32, [9#32]) := rfl

theorem test_decode_lda : decode [0x0000007c#32, 5#32, 9#32] = .ok (.lda 5#32, [9#32]) := rfl

theorem test_decode_ldaa : decode [0x00000080#32, 5#32, 9#32] = .ok (.ldaa 5#32, [9#32]) := rfl

theorem test_decode_ldc : decode [0x00000084#32, 5#32, 9#32] = .ok (.ldc 5#32, [9#32]) := rfl

theorem test_decode_ldl : decode [0x00000088#32, 5#32, 9#32] = .ok (.ldl 5#32, [9#32]) := rfl

theorem test_decode_ldla : decode [0x0000008c#32, 5#32, 9#32] = .ok (.ldla 5#32, [9#32]) := rfl

theorem test_decode_ldr : decode [0x00000090#32, 5#32, 9#32] = .ok (.ldr 5#32, [9#32]) := rfl

theorem test_decode_lds : decode [0x00000098#32, 5#32, 9#32] = .ok (.lds 5#32, [9#32]) := rfl

theorem test_decode_ldsa : decode [0x0000009c#32, 5#32, 9#32] = .ok (.ldsa 5#32, [9#32]) := rfl

theorem test_decode_link : decode [0x000000a0#32, 5#32, 9#32] = .ok (.link 5#32, [9#32]) := rfl

theorem test_decode_sta : decode [0x000000ac#32, 5#32, 9#32] = .ok (.sta 5#32, [9#32]) := rfl

theorem test_decode_stl : decode [0x000000b0#32, 5#32, 9#32] = .ok (.stl 5#32, [9#32]) := rfl

theorem test_decode_str : decode [0x000000b4#32, 5#32, 9#32] = .ok (.str 5#32, [9#32]) := rfl

theorem test_decode_sts : decode [0x000000b8#32, 5#32, 9#32] = .ok (.sts 5#32, [9#32]) := rfl

theorem test_decode_swpr : decode [0x000000c0#32, 5#32, 9#32] = .ok (.swpr 5#32, [9#32]) := rfl

theorem test_decode_trap : decode [0x000000c8#32, 5#32, 9#32] = .ok (.trap 5#32, [9#32]) := rfl

theorem test_decode_ldh : decode [0x000000d0#32, 5#32, 9#32] = .ok (.ldh 5#32, [9#32]) := rfl

theorem test_decode_stmh : decode [0x000000d8#32, 5#32, 9#32] = .ok (.stmh 5#32, [9#32]) := rfl

theorem test_decode_ldma : decode [0x0000007e#32, 5#32, 6#32, 9#32] = .ok (.ldma 5#32 6#32, [9#32]) := rfl

theorem test_decode_ldml : decode [0x0000008a#32, 5#32, 6#32, 9#32] = .ok (.ldml 5#32 6#32, [9#32]) := rfl

theorem test_decode_ldrr : decode [0x00000094#32, 5#32, 6#32, 9#32] = .ok (.ldrr 5#32 6#32, [9#32]) := rfl

theorem test_decode_ldms : decode [0x0000009a#32, 5#32, 6#32, 9#32] = .ok (.ldms 5#32 6#32, [9#32]) := rfl

theorem test_decode_stma : decode [0x000000ae#32, 5#32, 6#32, 9#32] = .ok (.stma 5#32 6#32, [9#32]) := rfl

theorem test_decode_stml : decode [0x000000b2#32, 5#32, 6#32, 9#32] = .ok (.stml 5#32 6#32, [9#32]) := rfl

theorem test_decode_stms : decode [0x000000ba#32, 5#32, 6#32, 9#32] = .ok (.stms 5#32 6#32, [9#32]) := rfl

theorem test_decode_swprr : decode [0x000000c4#32, 5#32, 6#32, 9#32] = .ok (.swprr 5#32 6#32, [9#32]) := rfl

theorem test_decode_ldmh : decode [0x000000d4#32, 5#32, 6#32, 9#32] = .ok (.ldmh 5#32 6#32, [9#32]) := rfl

-- `annote` has no words (R76); the words of spec/95_test_vectors.md section 2.10 are illegal (R75).

theorem test_annote_has_no_words : encode (.annote .sp (wrap (-1)) 0#32 .red "Pushed constants") = [] := rfl

theorem test_illegal_words :
    [0x00#32, 0x03#32, 0xff#32, 0x101#32, 0xFFFFFF84#32].all (fun op => decide (decode [op, 1#32, 2#32] = .error
    (.illegal op))) = true := by decide

theorem test_truncated_words :
    decode [] = .error .truncated ∧ decode [0x84#32] = .error .truncated ∧ decode [0x94#32, 1#32] = .error
    .truncated := by decide

theorem test_table_word_numbering :
    decodeTableWord 96 0x000000020000000100000094 = some (.ldrr 1#32 2#32) := by decide

theorem test_table_word_short : decodeTableWord 32 0x00000084 = some (.ldc 0#32) := by decide

theorem test_placed_word_is_fetched :
    (afterStep (State.reset.withFetchWord 64 0x0000000500000084)).map (fun t => (t.pc, t.sp, t.wordAt 101)) = some
    (2#32, 101#32, 5#32) := by decide

-- Single steps, spec/95_test_vectors.md sections 2.1 and 2.2.

theorem test_add_wraps :
    seen .add (pair 0x7fffffff#32 0x1#32) [100, 101] = some (1#32, 100#32, [0x80000000#32, 0x1#32]) := by decide

theorem test_sub_first_minus_top :
    seen .sub (pair 0x3#32 0x5#32) [100, 101] = some (1#32, 100#32, [0xfffffffe#32, 0x5#32]) := by decide

theorem test_mul_low_half :
    seen .mul (pair 0x80000000#32 0xffffffff#32) [100, 101] = some (1#32, 100#32, [0x80000000#32, 0xffffffff#32])
    := by decide

theorem test_mul_negative :
    seen .mul (pair 0xfffffffd#32 0x4#32) [100, 101] = some (1#32, 100#32, [0xfffffff4#32, 0x4#32]) := by decide

theorem test_div_truncates :
    seen .div (pair 0xfffffff9#32 0x2#32) [100, 101] = some (1#32, 100#32, [0xfffffffd#32, 0x2#32]) := by decide

theorem test_div_most_negative :
    seen .div (pair 0x80000000#32 0xffffffff#32) [100, 101] = some (1#32, 100#32, [0x80000000#32, 0xffffffff#32])
    := by decide

theorem test_mod_sign_of_dividend :
    seen .mod (pair 0xfffffff9#32 0x2#32) [100, 101] = some (1#32, 100#32, [0xffffffff#32, 0x2#32]) := by decide

theorem test_mod_most_negative :
    seen .mod (pair 0x80000000#32 0xffffffff#32) [100, 101] = some (1#32, 100#32, [0x0#32, 0xffffffff#32]) := by decide

theorem test_and_source_example :
    seen .and (pair 0xff00#32 0xf0f0#32) [100, 101] = some (1#32, 100#32, [0xf000#32, 0xf0f0#32]) := by decide

theorem test_or_source_example :
    seen .or (pair 0xff00#32 0xf0f0#32) [100, 101] = some (1#32, 100#32, [0xfff0#32, 0xf0f0#32]) := by decide

theorem test_xor_source_example :
    seen .xor (pair 0xff00#32 0xf0f0#32) [100, 101] = some (1#32, 100#32, [0xff0#32, 0xf0f0#32]) := by decide

theorem test_eq_true :
    seen .eq (pair 0x3#32 0x3#32) [100, 101] = some (1#32, 100#32, [0xffffffff#32, 0x3#32]) := by decide

theorem test_eq_false : seen .eq (pair 0x2#32 0x3#32) [100, 101] = some (1#32, 100#32, [0x0#32, 0x3#32]) := by decide

theorem test_ne_true :
    seen .ne (pair 0x2#32 0x3#32) [100, 101] = some (1#32, 100#32, [0xffffffff#32, 0x3#32]) := by decide

theorem test_ne_false : seen .ne (pair 0x3#32 0x3#32) [100, 101] = some (1#32, 100#32, [0x0#32, 0x3#32]) := by decide

theorem test_lt_signed :
    seen .lt (pair 0xffffffff#32 0x1#32) [100, 101] = some (1#32, 100#32, [0xffffffff#32, 0x1#32]) := by decide

theorem test_lt_equal : seen .lt (pair 0x3#32 0x3#32) [100, 101] = some (1#32, 100#32, [0x0#32, 0x3#32]) := by decide

theorem test_gt_signed :
    seen .gt (pair 0x1#32 0xffffffff#32) [100, 101] = some (1#32, 100#32, [0xffffffff#32, 0xffffffff#32]) := by decide

theorem test_gt_equal : seen .gt (pair 0x3#32 0x3#32) [100, 101] = some (1#32, 100#32, [0x0#32, 0x3#32]) := by decide

theorem test_le_signed :
    seen .le (pair 0x80000000#32 0x7fffffff#32) [100, 101] = some (1#32, 100#32, [0xffffffff#32, 0x7fffffff#32])
    := by decide

theorem test_le_false : seen .le (pair 0x3#32 0x2#32) [100, 101] = some (1#32, 100#32, [0x0#32, 0x2#32]) := by decide

theorem test_ge_signed :
    seen .ge (pair 0x80000000#32 0x7fffffff#32) [100, 101] = some (1#32, 100#32, [0x0#32, 0x7fffffff#32]) := by decide

theorem test_ge_equal :
    seen .ge (pair 0x3#32 0x3#32) [100, 101] = some (1#32, 100#32, [0xffffffff#32, 0x3#32]) := by decide

theorem test_div_by_zero : faultOf .div (pair 5#32 0#32) = some .divideByZero := by decide

theorem test_mod_by_zero : faultOf .mod (pair 5#32 0#32) = some .divideByZero := by decide

theorem test_neg_most_negative :
    seen .neg (atSP 101#32 0x80000000#32) [101] = some (1#32, 101#32, [0x80000000#32]) := by decide

theorem test_neg_source_example :
    seen .neg (atSP 101#32 1#32) [101] = some (1#32, 101#32, [0xFFFFFFFF#32]) := by decide

theorem test_not_source_example :
    seen .not (atSP 101#32 0xFFFF#32) [101] = some (1#32, 101#32, [0xFFFF0000#32]) := by decide

theorem test_add_underflow : faultOf .add (atSP 0#32 7#32) = some (.memoryRange .read 0xFFFFFFFF#32) := by decide

-- Section 2.3.

theorem test_brf_taken : seen (.brf 6#32) (condition 0#32) [] = some (18#32, 100#32, []) := by decide

theorem test_brf_not_taken : seen (.brf 6#32) (condition 0x80000000#32) [] = some (12#32, 100#32, []) := by decide

theorem test_brt_taken : seen (.brt 0xFFFFFFF4#32) (condition 2#32) [] = some (0#32, 100#32, []) := by decide

theorem test_brt_not_taken : seen (.brt 6#32) (condition 0#32) [] = some (12#32, 100#32, []) := by decide

theorem test_bra_forward : seen (.bra 5#32) stateB [] = some (7#32, 110#32, []) := by decide

theorem test_bra_itself : seen (.bra 0xFFFFFFFE#32) stateB [] = some (0#32, 110#32, []) := by decide

theorem test_bsr : seen (.bsr 20#32) stateB [111] = some (22#32, 111#32, [2#32]) := by decide

theorem test_jsr : seen .jsr stateB [110] = some (210#32, 110#32, [1#32]) := by decide

theorem test_ret : seen .ret stateB [110] = some (210#32, 109#32, [210#32]) := by decide

theorem test_nop : seen .nop stateB [] = some (1#32, 110#32, []) := by decide

theorem test_halt : (after .halt stateB).map (fun t => (t.pc, t.status)) = some (1#32, .halted) := by decide

-- Sections 2.4 to 2.8.

theorem test_ajs : seen (.ajs 0xFFFFFFFD#32) stateB [110] = some (2#32, 107#32, [210#32]) := by decide

theorem test_link :
    (after (.link 3#32) stateB).map (fun t => (t.pc, t.sp, t.mp, t.wordAt 111)) = some (2#32, 114#32, 111#32,
    105#32) := by decide

theorem test_unlink :
    (after .unlink stateB).map (fun t => (t.pc, t.sp, t.mp)) = some (1#32, 104#32, 205#32) := by decide

theorem test_swp : seen .swp stateB [109, 110] = some (1#32, 110#32, [210#32, 209#32]) := by decide

theorem test_ldc : seen (.ldc 0xFFFFFFFE#32) stateB [111] = some (2#32, 111#32, [0xFFFFFFFE#32]) := by decide

theorem test_lda : seen (.lda 0xFFFFFFFD#32) stateB [110] = some (2#32, 110#32, [7007#32]) := by decide

theorem test_ldaa : seen (.ldaa 0xFFFFFFFE#32) stateB [110] = some (2#32, 110#32, [208#32]) := by decide

theorem test_ldl : seen (.ldl 0xFFFFFFFF#32) stateB [111] = some (2#32, 111#32, [204#32]) := by decide

theorem test_ldla : seen (.ldla 0xFFFFFFFE#32) stateB [111] = some (2#32, 111#32, [103#32]) := by decide

theorem test_lds : seen (.lds 0xFFFFFFFF#32) stateB [111] = some (2#32, 111#32, [209#32]) := by decide

theorem test_ldsa : seen (.ldsa 0xFFFFFFFF#32) stateB [111] = some (2#32, 111#32, [109#32]) := by decide

theorem test_ldma :
    seen (.ldma 1#32 3#32) stateB [110, 111, 112] = some (3#32, 112#32, [7011#32, 7012#32, 7013#32]) := by decide

theorem test_ldma_size_zero : seen (.ldma 0#32 0#32) stateB [110] = some (3#32, 109#32, [210#32]) := by decide

theorem test_ldml :
    seen (.ldml 0xFFFFFFFF#32 2#32) stateB [111, 112] = some (3#32, 112#32, [204#32, 205#32]) := by decide

theorem test_ldms_overlap :
    seen (.ldms 0#32 2#32) { stateB with mem := stateB.mem.insert 111 999#32 } [110, 111, 112] = some (3#32,
    112#32, [210#32, 210#32, 999#32]) := by decide

theorem test_ldms_negative_size :
    faultOf (.ldms 0#32 0xFFFFFFFF#32) stateB = some (.operandRange 0xFFFFFFFF#32) := by decide

theorem test_sta : seen (.sta 0#32) stateB [210, 110] = some (2#32, 108#32, [209#32, 210#32]) := by decide

theorem test_stl : seen (.stl 1#32) stateB [106] = some (2#32, 109#32, [210#32]) := by decide

theorem test_sts : seen (.sts 0xFFFFFFFE#32) stateB [108] = some (2#32, 109#32, [210#32]) := by decide

theorem test_stma : seen (.stma 0#32 2#32) stateB [210, 211] = some (3#32, 107#32, [208#32, 209#32]) := by decide

theorem test_stml : seen (.stml 1#32 2#32) stateB [106, 107] = some (3#32, 108#32, [209#32, 210#32]) := by decide

theorem test_stms_overlap :
    seen (.stms 0xFFFFFFFE#32 2#32) stateB [108, 109, 110] = some (3#32, 108#32, [209#32, 210#32, 210#32]) := by decide

theorem test_ldr_sp : seen (.ldr 1#32) stateB [111] = some (2#32, 111#32, [110#32]) := by decide

theorem test_ldr_rr : seen (.ldr 4#32) stateB [111] = some (2#32, 111#32, [77#32]) := by decide

theorem test_str_sp : seen (.str 1#32) stateB [] = some (2#32, 210#32, []) := by decide

theorem test_str_pc : seen (.str 0#32) stateB [] = some (210#32, 109#32, []) := by decide

theorem test_ldrr_destination_first :
    regsAfter (.ldrr 5#32 6#32) stateB = some [3#32, 110#32, 105#32, 1500#32, 77#32, 66#32, 66#32, 88#32] := by decide

theorem test_ldrr_jump :
    regsAfter (.ldrr 0#32 5#32) stateB = some [55#32, 110#32, 105#32, 1500#32, 77#32, 55#32, 66#32, 88#32] := by decide

theorem test_swpr :
    (after (.swpr 4#32) stateB).map (fun t => (t.pc, t.sp, t.rr, t.wordAt 110)) = some (2#32, 110#32, 210#32,
    77#32) := by decide

theorem test_swpr_sp : faultOf (.swpr 1#32) stateB = some (.unspecified .swprSP) := by decide

theorem test_swprr :
    regsAfter (.swprr 2#32 7#32) stateB = some [3#32, 110#32, 88#32, 1500#32, 77#32, 55#32, 66#32, 105#32] := by decide

theorem test_swprr_same :
    regsAfter (.swprr 5#32 5#32) stateB = some [3#32, 110#32, 105#32, 1500#32, 77#32, 55#32, 66#32, 88#32] := by decide

theorem test_register_number_eight : faultOf (.ldrr 1#32 8#32) stateB = some (.registerNumber 8#32) := by decide

theorem test_ldh : seen (.ldh 0xFFFFFFFD#32) stateB [110] = some (2#32, 110#32, [7007#32]) := by decide

theorem test_ldmh :
    seen (.ldmh 0#32 3#32) stateB [110, 111, 112] = some (3#32, 112#32, [7008#32, 7009#32, 7010#32]) := by decide

theorem test_sth :
    (after .sth stateB).map (fun t => (t.sp, t.hp, t.wordAt 1500, t.wordAt 110)) = some (110#32, 1501#32, 210#32,
    1500#32) := by decide

theorem test_stmh :
    (after (.stmh 3#32) stateB).map (fun t => (t.sp, t.hp, [1500, 1501, 1502, 108].map t.wordAt)) = some (108#32,
    1503#32, [208#32, 209#32, 210#32, 1502#32]) := by decide

theorem test_stmh_size_zero :
    (after (.stmh 0#32) stateB).map (fun t => (t.sp, t.hp, t.wordAt 111)) = some (111#32, 1500#32, 1499#32) := by decide

-- Section 2.9 and 2.10.

theorem test_trap_print_integer :
    (after (.trap 0#32) (atSP 110#32 0xFFFFFFFF#32)).map (fun t => (t.pc, t.sp, t.output)) = some (2#32, 109#32,
    [.printInt (-1)]) := by decide

theorem test_annote : exec (.annote .sp (wrap (-1)) 0#32 .red "x") stateB = .next stateB := rfl

theorem test_fault_keeps_the_state :
    step (codeAt 0#32 [0x101#32]) = .next { codeAt 0#32 [0x101#32] with status := .faulted (.illegalInstruction
    0x101#32) } := rfl

theorem test_size_checked_before_reads :
    faultOf (.ldma 0#32 0xFFFFFFFF#32) (atSP 5000#32 0#32) = some (.operandRange 0xFFFFFFFF#32) := by decide

theorem test_sth_last_word :
    (after .sth { stateB with hp := 1999#32 }).map (fun t => (t.hp, t.wordAt 1999)) = some (2000#32, 210#32) := by decide

-- The assembler, spec/30_encoding.md section 7 and spec/95_test_vectors.md section 1.

theorem test_assemble_label_loop :
    (assemble "l1: bra l1 ; comment".toList).map image = .ok [0x68#32, 0xFFFFFFFE#32] := by decide

theorem test_assemble_registers :
    (assemble "ldrr SP MP ; SP <- MP".toList).map image = .ok [0x94#32, 1#32, 2#32] := by decide

theorem test_assemble_unknown : assemble "lr".toList = .error .unknownMnemonic := by decide

theorem test_assemble_annote_quoted :
    assemble ("annote SP -1 0 red " ++ "\"Pushed constants\" ; annote top 2 stack values").toList = .ok [.annote
    .sp 0xFFFFFFFF#32 0#32 .red "Pushed constants"] := by decide

theorem test_assemble_annote_text_with_colon :
    assemble "annote SP -1 0 red x:".toList = .ok [.annote .sp 0xFFFFFFFF#32 0#32 .red "x:"] := by decide

theorem test_boot_loads_at_zero :
    (boot 100#32 100#32 1500#32 [0xa4#32, 0x74#32]).map (fun s => (s.pc, s.sp, s.mem)) = some (0#32, 100#32, [(0,
    0xa4#32), (1, 0x74#32)]) := by decide

-- Witnesses. Each theorem gives, for the obligation it is named after, states and operands that meet the hypotheses of each
-- clause, at the boundaries of their ranges.

/-- Words found one by one at PC are code at PC. -/
theorem codeAt_of_all (s : State) (ws : List Word)
    (h : ∀ k, k < ws.length → s.pc.toNat + k < Config.memWords ∧ Memory.lookup s.mem (s.pc.toNat + k) = ws[k]?) :
    CodeAt s ws := by
  intro k v hk
  obtain ⟨hl, _⟩ := List.getElem?_eq_some_iff.1 hk
  exact ⟨(h k hl).1, (h k hl).2.trans hk⟩

theorem witness_DecodeAndEncodeAgree :
    [0x94#32, 1#32, 2#32, 7#32] = encode (.ldrr 1#32 2#32) ++ [7#32] ∧ (Instr.ldrr 1#32 2#32).isMeta = false := by decide

theorem witness_WordsOutsideTheMapAreIllegal :
    [0x0#32, 0x3#32, 0xff#32, 0x101#32, 0xFFFFFFFF#32].all (fun op => decide (op ∉ executableCodes)) = true ∧
    (codeAt 1999#32 [0xff#32]).status = .running ∧ CodeAt (codeAt 1999#32 [0xff#32]) [0xff#32] := ⟨by decide, rfl,
    codeAt_of_all _ _ (by decide)⟩

theorem witness_StepRunsTheDecodedInstruction :
    (codeAt 1998#32 [0x68#32, 5#32]).status = .running ∧ CodeAt (codeAt 1998#32 [0x68#32, 5#32]) [0x68#32, 5#32] ∧
    decode [0x68#32, 5#32] = .ok (.bra 5#32, []) ∧ (after (.bra 5#32) (codeAt 1998#32 [0x68#32, 5#32])).isSome =
    true ∧ CodeAt (codeAt 0#32 [0xc0#32, 1#32]) [0xc0#32, 1#32] ∧ decode [0xc0#32, 1#32] = .ok (.swpr 1#32, []) ∧
    faultOf (.swpr 1#32) (codeAt 0#32 [0xc0#32, 1#32]) = some (.unspecified .swprSP) := ⟨rfl, codeAt_of_all _ _
    (by decide), rfl, by decide, codeAt_of_all _ _ (by decide), rfl, by decide⟩

theorem witness_StoppedMachineStaysStopped :
    ({ stateB with status := .halted } : State).status = .halted ∧ ({ stateB with status := .faulted .divideByZero
    } : State).status = .faulted .divideByZero := by decide

theorem witness_FaultsLeaveThePreState :
    (codeAt 0#32 [0xff#32]).status = .running ∧ (afterStep (codeAt 0#32 [0xff#32])).map State.status = some
    (.faulted (.illegalInstruction 0xff#32)) := by decide

theorem witness_FetchOutsideMemoryFaults :
    ¬ ValidAddr (codeAt 2000#32 []).pc ∧ CodeAt (codeAt 1999#32 [0x84#32]) [0x84#32] ∧ (lookupOpcode 0x84#32).map
    (fun r => r.shape.inlineOperands) = some 1 ∧ ¬ ValidAddr ((codeAt 1999#32 [0x84#32]).pc + 1#32) ∧ CodeAt
    (codeAt 1998#32 [0x94#32, 1#32]) [0x94#32, 1#32] ∧ (lookupOpcode 0x94#32).map (fun r =>
    r.shape.inlineOperands) = some 2 ∧ ¬ ValidAddr ((codeAt 1998#32 [0x94#32, 1#32]).pc + 2#32) := ⟨by decide,
    codeAt_of_all _ _ (by decide), by decide, by decide, codeAt_of_all _ _ (by decide), by decide, by decide⟩

theorem witness_FetchOfAnUnwrittenWordIsRefused :
    (State.reset.status = .running ∧ ValidAddr State.reset.pc ∧ Memory.lookup State.reset.mem State.reset.pc.toNat
    = none) ∧ CodeAt (codeAt 1998#32 [0x84#32]) [0x84#32] ∧ (lookupOpcode 0x84#32).map (fun r =>
    r.shape.inlineOperands) = some 1 ∧ (ValidAddr ((codeAt 1998#32 [0x84#32]).pc + 1#32) ∧ Memory.lookup (codeAt
    1998#32 [0x84#32]).mem ((codeAt 1998#32 [0x84#32]).pc + 1#32).toNat = none) ∧ CodeAt (codeAt 1997#32 [0x94#32,
    1#32]) [0x94#32, 1#32] ∧ (lookupOpcode 0x94#32).map (fun r => r.shape.inlineOperands) = some 2 ∧ (ValidAddr
    ((codeAt 1997#32 [0x94#32, 1#32]).pc + 2#32) ∧ Memory.lookup (codeAt 1997#32 [0x94#32, 1#32]).mem ((codeAt
    1997#32 [0x94#32, 1#32]).pc + 2#32).toNat = none) := ⟨by decide, codeAt_of_all _ _ (by decide), by decide, by
    decide, codeAt_of_all _ _ (by decide), by decide, by decide⟩

theorem witness_StepKeepsTheMemoryCanonical :
    (codeAt 0#32 [0x84#32, 5#32]).mem.wf ∧ (afterStep (codeAt 0#32 [0x84#32, 5#32])).isSome = true := by decide

theorem witness_StepKeepsTheOutputHistory :
    (afterStep { codeAt 0#32 [0xc8#32, 0#32] with sp := 0#32 }).map State.output = some [.printInt 200] := by decide

theorem witness_OnlyTrapTouchesTheEnvironment :
    (after .add stateB).isSome = true ∧ ∀ a, Instr.add ≠ .trap a := ⟨by decide, fun _ => by simp⟩

theorem witness_OnlyHaltChangesTheStatus :
    (after .halt stateB).isSome = true ∧ (after .nop stateB).isSome = true := by decide

theorem witness_OnlyNamedRegistersAndWordsChange :
    (after (.stmh 3#32) stateB).isSome = true ∧ (after (.stms 0xFFFFFFFE#32 2#32) stateB).isSome = true := by decide

theorem witness_ImplicitRegisterWrites :
    (after (.link 0#32) stateB).map State.mp ≠ some stateB.mp ∧ (after .sth stateB).map State.hp ≠ some stateB.hp
    ∧ (after (.str 4#32) stateB).map State.rr ≠ some stateB.rr ∧ (after (.swpr 5#32) stateB).map State.r5 ≠ some
    stateB.r5 ∧ (after (.ldrr 6#32 5#32) stateB).map State.r6 ≠ some stateB.r6 ∧ (after (.swprr 7#32 2#32)
    stateB).map State.r7 ≠ some stateB.r7 := by decide

theorem witness_PcAdvancesByTheLength :
    (after (.ldrr 1#32 2#32) stateB).isSome = true ∧ Instr.ldrr 1#32 2#32 ≠ .halt ∧ ¬ setsPc (.ldrr 1#32 2#32) ∧
    (after (.trap 0#32) stateB).isSome = true := ⟨by decide, by decide, by simp [setsPc], by decide⟩

theorem witness_TwoOperandResults :
    (ValidAddr (atSP 1#32 0#32).sp ∧ ValidAddr ((atSP 1#32 0#32).sp - 1#32)) ∧ (ValidAddr (atSP 1999#32 0#32).sp ∧
    ValidAddr ((atSP 1999#32 0#32).sp - 1#32)) ∧ ¬ ValidAddr (atSP 2000#32 0#32).sp ∧ (ValidAddr (atSP 0#32
    0#32).sp ∧ ¬ ValidAddr ((atSP 0#32 0#32).sp - 1#32)) := by decide

theorem witness_OneOperandResults :
    ValidAddr (atSP 0#32 0#32).sp ∧ ValidAddr (atSP 1999#32 0#32).sp ∧ ¬ ValidAddr (atSP 2000#32 0#32).sp := by decide

theorem witness_DivisionResult :
    ValidAddr (pair 7#32 2#32).sp ∧ ValidAddr ((pair 7#32 2#32).sp - 1#32) ∧ (pair 7#32 2#32).wordAt (pair 7#32
    2#32).sp.toNat ≠ 0#32 ∧ (pair 7#32 0#32).wordAt (pair 7#32 0#32).sp.toNat = 0#32 ∧ (ValidAddr (atSP 1#32
    0#32).sp ∧ ValidAddr ((atSP 1#32 0#32).sp - 1#32)) ∧ (ValidAddr (atSP 1999#32 0#32).sp ∧ ValidAddr ((atSP
    1999#32 0#32).sp - 1#32)) ∧ ¬ ValidAddr (atSP 2000#32 0#32).sp ∧ (ValidAddr (atSP 0#32 0#32).sp ∧ ¬ ValidAddr
    ((atSP 0#32 0#32).sp - 1#32)) := by decide

theorem witness_RemainderResult :
    ValidAddr (pair 7#32 2#32).sp ∧ ValidAddr ((pair 7#32 2#32).sp - 1#32) ∧ (pair 7#32 2#32).wordAt (pair 7#32
    2#32).sp.toNat ≠ 0#32 ∧ (pair 7#32 0#32).wordAt (pair 7#32 0#32).sp.toNat = 0#32 ∧ (ValidAddr (atSP 1#32
    0#32).sp ∧ ValidAddr ((atSP 1#32 0#32).sp - 1#32)) ∧ (ValidAddr (atSP 1999#32 0#32).sp ∧ ValidAddr ((atSP
    1999#32 0#32).sp - 1#32)) ∧ ¬ ValidAddr (atSP 2000#32 0#32).sp ∧ (ValidAddr (atSP 0#32 0#32).sp ∧ ¬ ValidAddr
    ((atSP 0#32 0#32).sp - 1#32)) := by decide

theorem witness_ComparisonResults :
    (ValidAddr (atSP 1#32 0#32).sp ∧ ValidAddr ((atSP 1#32 0#32).sp - 1#32)) ∧ (ValidAddr (atSP 1999#32 0#32).sp ∧
    ValidAddr ((atSP 1999#32 0#32).sp - 1#32)) ∧ ¬ ValidAddr (atSP 2000#32 0#32).sp ∧ (ValidAddr (atSP 0#32
    0#32).sp ∧ ¬ ValidAddr ((atSP 0#32 0#32).sp - 1#32)) := by decide

theorem witness_ConditionalBranches :
    (condition 0#32).wordAt (condition 0#32).sp.toNat = 0#32 ∧ (condition 1#32).wordAt (condition 1#32).sp.toNat ≠
    0#32 ∧ ValidAddr (atSP 0#32 0#32).sp ∧ ValidAddr (atSP 1999#32 0#32).sp ∧ ¬ ValidAddr (atSP 2000#32 0#32).sp
    := by decide

theorem witness_BranchToSubroutine :
    ValidAddr ((atSP 1998#32 0#32).sp + 1#32) ∧ ValidAddr ((atSP 0xFFFFFFFF#32 0#32).sp + 1#32) ∧ ¬ ValidAddr
    ((atSP 1999#32 0#32).sp + 1#32) := by decide

theorem witness_JumpToSubroutineAndReturn :
    ValidAddr (atSP 0#32 0#32).sp ∧ ValidAddr (atSP 1999#32 0#32).sp ∧ ¬ ValidAddr (atSP 2000#32 0#32).sp := by decide

theorem witness_ReturnUndoesTheCall :
    (after (.bsr 20#32) stateB).isSome = true ∧ (after .jsr stateB).isSome = true := by decide

theorem witness_LinkFrame :
    ValidAddr ((atSP 1998#32 0#32).sp + 1#32) ∧ ValidAddr ((atSP 0xFFFFFFFF#32 0#32).sp + 1#32) ∧ ¬ ValidAddr
    ((atSP 1999#32 0#32).sp + 1#32) := by decide

theorem witness_SwapAndUnlink :
    (ValidAddr (atSP 1#32 0#32).sp ∧ ValidAddr ((atSP 1#32 0#32).sp - 1#32)) ∧ (ValidAddr (atSP 1999#32 0#32).sp ∧
    ValidAddr ((atSP 1999#32 0#32).sp - 1#32)) ∧ ¬ ValidAddr (atSP 2000#32 0#32).sp ∧ (ValidAddr (atSP 0#32
    0#32).sp ∧ ¬ ValidAddr ((atSP 0#32 0#32).sp - 1#32)) ∧ ValidAddr ({ State.reset with mp := 1999#32 } :
    State).mp ∧ ¬ ValidAddr ({ State.reset with mp := 2000#32 } : State).mp := by decide

theorem witness_UnlinkUndoesLink : (after (.link 3#32) stateB).isSome = true := by decide

theorem witness_ConstantAndAddressLoads :
    ValidAddr ((atSP 1998#32 0#32).sp + 1#32) ∧ ValidAddr ((atSP 0xFFFFFFFF#32 0#32).sp + 1#32) ∧ ¬ ValidAddr
    ((atSP 1999#32 0#32).sp + 1#32) := by decide

theorem witness_LocalAndStackLoads :
    ValidAddr (wrap ((stateB.mp.toNat : Int) + (0xFFFFFF97#32 : Word).toInt)) ∧ ValidAddr (stateB.sp + 1#32) ∧ ¬
    ValidAddr (wrap ((stateB.mp.toNat : Int) + (0xFFFFFF96#32 : Word).toInt)) ∧ ValidAddr (wrap ((State.sp (atSP
    1999#32 0#32)).toNat + (0#32 : Word).toInt)) ∧ ¬ ValidAddr ((atSP 1999#32 0#32).sp + 1#32) := by decide

theorem witness_PointerLoads :
    (ValidAddr (atSP 0#32 1999#32).sp ∧ ValidAddr ((atSP 0#32 1999#32).wordAt 0 + 0#32)) ∧ ¬ ValidAddr (atSP
    2000#32 0#32).sp ∧ (ValidAddr (atSP 0#32 1999#32).sp ∧ ¬ ValidAddr ((atSP 0#32 1999#32).wordAt 0 + 1#32)) ∧
    ValidAddr (atSP 1999#32 0#32).sp := by decide

theorem witness_LocalAndStackBlockLoads :
    ValidBlock 1999#32 1 ∧ ValidBlock 1999#32 0 ∧ ValidBlock 5000#32 0 ∧ ¬ ValidBlock 1999#32 2 ∧ (0xFFFFFFFF#32 :
    Word).toInt < 0 ∧ 0 ≤ (0#32 : Word).toInt ∧ 0 ≤ (0x7FFFFFFF#32 : Word).toInt ∧ ValidBlock (stateB.mp +
    0xFFFFFFFF#32) 2 ∧ ValidBlock (stateB.sp + 1#32) 2 ∧ ¬ ValidBlock ((atSP 1998#32 0#32).sp + 1#32) 2 := by
    decide

theorem witness_PointerBlockLoad :
    ValidBlock 1999#32 1 ∧ ValidBlock 1999#32 0 ∧ ValidBlock 5000#32 0 ∧ ¬ ValidBlock 1999#32 2 ∧ (0xFFFFFFFF#32 :
    Word).toInt < 0 ∧ 0 ≤ (0#32 : Word).toInt ∧ 0 ≤ (0x7FFFFFFF#32 : Word).toInt ∧ ValidAddr stateB.sp ∧
    ValidBlock (stateB.wordAt stateB.sp.toNat + 1#32) 3 ∧ ValidBlock stateB.sp 3 ∧ ¬ ValidAddr (atSP 2000#32
    0#32).sp ∧ ValidBlock ((atSP 1999#32 5#32).wordAt 1999 + 0#32) 2 ∧ ¬ ValidBlock (atSP 1999#32 5#32).sp 2 ∧ ¬
    ValidBlock ((atSP 0#32 1999#32).wordAt 0 + 0#32) 2 := by decide

theorem witness_LocalAndStackStores :
    ValidAddr stateB.sp ∧ ValidAddr (wrap ((stateB.mp.toNat : Int) + (0xFFFFFF97#32 : Word).toInt)) ∧ ¬ ValidAddr
    (atSP 2000#32 0#32).sp ∧ ¬ ValidAddr (wrap ((stateB.sp.toNat : Int) + (0xFFFFFF91#32 : Word).toInt)) := by
    decide

theorem witness_StoreViaAddress :
    ValidAddr (pair 7#32 1999#32).sp ∧ ValidAddr ((pair 7#32 1999#32).sp - 1#32) ∧ ValidAddr (displaced ((pair
    7#32 1999#32).wordAt 101) 0#32) ∧ ¬ ValidAddr (displaced ((pair 7#32 1999#32).wordAt 101) 1#32) ∧ (ValidAddr
    (atSP 1#32 0#32).sp ∧ ValidAddr ((atSP 1#32 0#32).sp - 1#32)) ∧ (ValidAddr (atSP 1999#32 0#32).sp ∧ ValidAddr
    ((atSP 1999#32 0#32).sp - 1#32)) ∧ ¬ ValidAddr (atSP 2000#32 0#32).sp ∧ (ValidAddr (atSP 0#32 0#32).sp ∧ ¬
    ValidAddr ((atSP 0#32 0#32).sp - 1#32)) := by decide

theorem witness_LocalAndStackBlockStores :
    ValidBlock 1999#32 1 ∧ ValidBlock 1999#32 0 ∧ ValidBlock 5000#32 0 ∧ ¬ ValidBlock 1999#32 2 ∧ (0xFFFFFFFF#32 :
    Word).toInt < 0 ∧ 0 ≤ (0#32 : Word).toInt ∧ 0 ≤ (0x7FFFFFFF#32 : Word).toInt ∧ ValidBlock (stateB.sp - 2#32 +
    1#32) 2 ∧ ValidBlock (stateB.mp + 1#32) 2 ∧ ¬ ValidBlock ((atSP 0#32 0#32).sp - 2#32 + 1#32) 2 ∧ ¬ ValidBlock
    (stateB.mp + 1895#32) 2 ∧ ¬ ValidBlock (stateB.sp + 1889#32) 2 := by decide

theorem witness_PointerBlockStore :
    ValidBlock 1999#32 1 ∧ ValidBlock 1999#32 0 ∧ ValidBlock 5000#32 0 ∧ ¬ ValidBlock 1999#32 2 ∧ (0xFFFFFFFF#32 :
    Word).toInt < 0 ∧ 0 ≤ (0#32 : Word).toInt ∧ 0 ≤ (0x7FFFFFFF#32 : Word).toInt ∧ ValidAddr stateB.sp ∧
    ValidBlock (stateB.sp - 2#32) 2 ∧ ValidBlock (stateB.wordAt stateB.sp.toNat + 0#32) 2 ∧ ¬ ValidAddr (atSP
    2000#32 0#32).sp ∧ ¬ ValidBlock ((atSP 1#32 0#32).sp - 2#32) 2 ∧ ¬ ValidBlock (stateB.wordAt stateB.sp.toNat +
    1789#32) 2 := by decide

theorem witness_HeapWordStoreAndLoad :
    (ValidAddr (atSP 0#32 1999#32).sp ∧ ValidAddr ((atSP 0#32 1999#32).wordAt 0 + 0#32)) ∧ ¬ ValidAddr (atSP
    2000#32 0#32).sp ∧ (ValidAddr (atSP 0#32 1999#32).sp ∧ ¬ ValidAddr ((atSP 0#32 1999#32).wordAt 0 + 1#32)) ∧
    (ValidAddr stateB.hp ∧ stateB.hp ≠ stateB.sp) ∧ ¬ ValidAddr ({ stateB with hp := 2000#32 } : State).hp := by
    decide

theorem witness_HeapBlockStore :
    (0xFFFFFFFF#32 : Word).toInt < 0 ∧ 0 ≤ (3#32 : Word).toInt ∧ ValidBlock (stateB.sp - 3#32 + 1#32) 3 ∧
    ValidBlock stateB.hp 3 ∧ ValidAddr (stateB.sp - 3#32 + 1#32) ∧ ¬ ValidBlock ((atSP 0#32 0#32).sp - 2#32 +
    1#32) 2 ∧ ¬ ValidBlock ({ stateB with hp := 1998#32 } : State).hp 3 ∧ (ValidBlock ((atSP 1999#32 0#32).sp -
    0#32 + 1#32) 0 ∧ ¬ ValidAddr ((atSP 1999#32 0#32).sp - 0#32 + 1#32)) := by decide

theorem witness_HeapBlockLoad :
    ValidBlock 1999#32 1 ∧ ValidBlock 1999#32 0 ∧ ValidBlock 5000#32 0 ∧ ¬ ValidBlock 1999#32 2 ∧ (0xFFFFFFFF#32 :
    Word).toInt < 0 ∧ 0 ≤ (0#32 : Word).toInt ∧ 0 ≤ (0x7FFFFFFF#32 : Word).toInt ∧ ValidAddr stateB.sp ∧
    ValidBlock (stateB.wordAt stateB.sp.toNat + 0#32 - 3#32 + 1#32) 3 ∧ ValidBlock stateB.sp 3 ∧ ¬ ValidAddr (atSP
    2000#32 0#32).sp ∧ ¬ ValidBlock ((atSP 0#32 1#32).wordAt 0 + 0#32 - 3#32 + 1#32) 3 ∧ (ValidBlock ((atSP
    1999#32 5#32).wordAt 1999 + 0#32 - 2#32 + 1#32) 2 ∧ ¬ ValidBlock (atSP 1999#32 5#32).sp 2) := by decide

theorem witness_HeapBlockRoundTrip :
    1 ≤ (3#32 : Word).toNat ∧ (after (.stmh 3#32) stateB).isSome = true ∧ stateB.sp.toNat < stateB.hp.toNat ∧
    (after (.stmh 1#32) { stateB with hp := 109#32 }).isSome = true ∧ 109 + 1 ≤ (stateB.sp - 1#32 + 1#32).toNat :=
    by decide

theorem witness_LoadRegister :
    7 < (8#32 : Word).toNat ∧ ValidAddr ((atSP 1998#32 0#32).sp + 1#32) ∧ ValidAddr ((atSP 0xFFFFFFFF#32 0#32).sp
    + 1#32) ∧ ¬ ValidAddr ((atSP 1999#32 0#32).sp + 1#32) := by decide

theorem witness_CopyRegister : 7 < (8#32 : Word).toNat ∧ Reg.rr ≠ Reg.pc := by decide

theorem witness_StoreRegister :
    7 < (0xFFFFFFFF#32 : Word).toNat ∧ Reg.rr ≠ Reg.pc ∧ Reg.rr ≠ Reg.sp ∧ ValidAddr (atSP 0#32 0#32).sp ∧
    ValidAddr (atSP 1999#32 0#32).sp ∧ ¬ ValidAddr (atSP 2000#32 0#32).sp := by decide

theorem witness_SwapRegister :
    7 < (8#32 : Word).toNat ∧ Reg.rr ≠ Reg.sp ∧ Reg.pc ≠ Reg.sp ∧ ValidAddr (atSP 0#32 0#32).sp ∧ ValidAddr (atSP
    1999#32 0#32).sp ∧ ¬ ValidAddr (atSP 2000#32 0#32).sp := by decide

theorem witness_SwapTwoRegisters : 7 < (8#32 : Word).toNat ∧ Reg.mp ≠ Reg.r7 ∧ Reg.mp ≠ Reg.pc := by decide

theorem witness_RegisterNumbersOutsideFault :
    7 < (8#32 : Word).toNat ∧ 7 < (0xFFFFFFFF#32 : Word).toNat ∧ (7#32 : Word).toNat ≤ 7 ∧ (0#32 : Word).toNat ≤ 7
    := by decide

theorem witness_TrapZeroPrintsAnInteger :
    ValidAddr (atSP 0#32 0#32).sp ∧ ValidAddr (atSP 1999#32 0#32).sp ∧ ¬ ValidAddr (atSP 2000#32 0#32).sp := by decide

theorem witness_TrapGoesToTheServiceOfItsOperand : (1#32 : Word) ≠ 0#32 := by decide

theorem witness_CharacterAndInputServices :
    ValidAddr (atSP 0#32 0#32).sp ∧ ValidAddr (atSP 1999#32 0#32).sp ∧ ¬ ValidAddr (atSP 2000#32 0#32).sp ∧
    ValidAddr ((atSP 1998#32 0#32).sp + 1#32) ∧ ValidAddr ((atSP 0xFFFFFFFF#32 0#32).sp + 1#32) ∧ ¬ ValidAddr
    ((atSP 1999#32 0#32).sp + 1#32) := by decide

theorem witness_SequenceAndFileInputServices :
    ValidBlock ((atSP 0#32 0#32).sp + 1#32) 1999 ∧ ¬ ValidBlock ((atSP 1999#32 0#32).sp + 1#32) 1 ∧ (ValidAddr
    (atSP 5#32 9#32).sp ∧ ({ atSP 5#32 9#32 with openFiles := [9#32] } : State).wordAt 5 ∈ [9#32]) ∧ ¬ (atSP 5#32
    9#32).topIsOpenFile ∧ ¬ (atSP 2000#32 0#32).topIsOpenFile := by decide

theorem witness_BranchesLandOnTheirLabels :
    (condition 0#32).pc = BitVec.ofNat 32 10 ∧ (after (.bra (branchOffset 10 2)) (condition 0#32)).isSome = true ∧
    (after (.bsr (branchOffset 10 2)) (condition 0#32)).isSome = true ∧ (after (.brf (branchOffset 10 2))
    (condition 0#32)).isSome = true ∧ (condition 0#32).wordAt (condition 0#32).sp.toNat = 0#32 ∧ (after (.brt
    (branchOffset 10 2)) (condition 1#32)).isSome = true ∧ (condition 1#32).wordAt (condition 1#32).sp.toNat ≠
    0#32 := by decide

theorem witness_LoadedProgramIsFetched :
    (boot 100#32 100#32 1500#32 (image ([.ldc 5#32] ++ .trap 0#32 :: [.halt]))).isSome = true ∧ (Instr.trap
    0#32).isMeta = false := by decide

end Sys2Proof.Tests
end

/-!
PROOFS. The state and the step (spec/10_state.md): which words are register numbers (R13), the state after reset
(R30, R36), and the step as fetch, decode and execution (R25, spec/30_encoding.md R77).
-/

namespace Sys2Proof.Machine

-- Register numbers (spec/10_state.md R11, R13).

/-- The registers are numbered 0 to 7 without a gap. -/
theorem exists_registerNumber_toNat : ∀ n : Nat, n ≤ 7 → ∃ r, (registerNumber r).toNat = n
  | 0, _ => ⟨.pc, rfl⟩
  | 1, _ => ⟨.sp, rfl⟩
  | 2, _ => ⟨.mp, rfl⟩
  | 3, _ => ⟨.hp, rfl⟩
  | 4, _ => ⟨.rr, rfl⟩
  | 5, _ => ⟨.r5, rfl⟩
  | 6, _ => ⟨.r6, rfl⟩
  | 7, _ => ⟨.r7, rfl⟩
  | n + 8, h => absurd h (by omega)

theorem registerNumber_toNat_le (r : Reg) : (registerNumber r).toNat ≤ 7 := by
  cases r <;> decide

theorem toNat_le_seven_iff (a : Word) : a.toNat ≤ 7 ↔ ∃ r, a = registerNumber r := by
  constructor
  · intro h
    obtain ⟨r, hr⟩ := exists_registerNumber_toNat a.toNat h
    exact ⟨r, BitVec.eq_of_toNat_eq hr.symm⟩
  · rintro ⟨r, rfl⟩
    exact registerNumber_toNat_le r

/-- A rule that first reads a register operand faults where the word is no register number. -/
theorem finish_regOperand_outside {a : Word} (h : 7 < a.toNat) (k : Reg → Result State) :
    finish (regOperand a >>= k) = .fault (.registerNumber a) := by
  rw [regOperand_outside a h, bind_error, finish_error]

/-- A rule that reads two register operands faults with the second where the first alone is a register number. -/
theorem finish_regOperand_second_outside {a b : Word} (ha : a.toNat ≤ 7) (hb : 7 < b.toNat)
    (k : Reg → Reg → Result State) :
    finish (regOperand a >>= fun r => regOperand b >>= k r) = .fault (.registerNumber b) := by
  obtain ⟨r, rfl⟩ := (toNat_le_seven_iff a).1 ha
  rw [regOperand_registerNumber, bind_ok]
  exact finish_regOperand_outside hb (k r)

theorem exec_ldr_outside {a : Word} (h : 7 < a.toNat) (s : State) :
    exec (.ldr a) s = .fault (.registerNumber a) := finish_regOperand_outside h _

theorem exec_str_outside {a : Word} (h : 7 < a.toNat) (s : State) :
    exec (.str a) s = .fault (.registerNumber a) := finish_regOperand_outside h _

theorem exec_swpr_outside {a : Word} (h : 7 < a.toNat) (s : State) :
    exec (.swpr a) s = .fault (.registerNumber a) := finish_regOperand_outside h _

theorem exec_ldrr_first_outside {a : Word} (h : 7 < a.toNat) (b : Word) (s : State) :
    exec (.ldrr a b) s = .fault (.registerNumber a) := finish_regOperand_outside h _

theorem exec_swprr_first_outside {a : Word} (h : 7 < a.toNat) (b : Word) (s : State) :
    exec (.swprr a b) s = .fault (.registerNumber a) := finish_regOperand_outside h _

theorem exec_ldrr_second_outside {a b : Word} (ha : a.toNat ≤ 7) (hb : 7 < b.toNat) (s : State) :
    exec (.ldrr a b) s = .fault (.registerNumber b) := finish_regOperand_second_outside ha hb _

theorem exec_swprr_second_outside {a b : Word} (ha : a.toNat ≤ 7) (hb : 7 < b.toNat) (s : State) :
    exec (.swprr a b) s = .fault (.registerNumber b) := finish_regOperand_second_outside ha hb _

/-- Settles O53: each of the five instructions reads its register operands before anything else, the first one first. -/
theorem registerNumbersOutsideFault : Obligations.RegisterNumbersOutsideFault := by
  refine ⟨toNat_le_seven_iff, fun a b s => ⟨fun ha => ?one, fun ha _ => ?first, fun ha hb => ?second, fun ha _ => ?both⟩⟩
  case one => exact ⟨exec_ldr_outside ha s, exec_str_outside ha s, exec_swpr_outside ha s⟩
  case first => exact ⟨exec_ldrr_first_outside ha b s, exec_swprr_first_outside ha b s⟩
  case second => exact ⟨exec_ldrr_second_outside ha hb s, exec_swprr_second_outside ha hb s⟩
  case both => exact ⟨a, .inl rfl, exec_ldrr_first_outside ha b s, exec_swprr_first_outside ha b s⟩

-- The state after reset (spec/10_state.md R30, R36).

/-- Settles O1: each field of `State.reset` is the value the rule gives. -/
theorem resetPcStatusOutputAndFiles : Obligations.ResetPcStatusOutputAndFiles :=
  ⟨rfl, rfl, rfl, rfl⟩

-- Fetching what memory holds (spec/30_encoding.md R77).

/-- The `k`-th word of the code at PC is fetched from `k` addresses on; PC does not wrap on the way, because the words
exist. -/
theorem fetchWord_of_codeAt {s : State} {ws : List Word} (hc : CodeAt s ws) {k : Nat} {v : Word}
    (hk : ws[k]? = some v) : s.fetchWord (s.pc + BitVec.ofNat 32 k) = .ok v := by
  obtain ⟨hvalid, hlookup⟩ := hc k v hk
  have hnum : (s.pc + BitVec.ofNat 32 k).toNat = s.pc.toNat + k := by
    simp only [Config.memWords] at hvalid
    rw [BitVec.toNat_add, BitVec.toNat_ofNat]
    omega
  apply fetchWord_written
  · rw [ValidAddr, hnum]; exact hvalid
  · rw [hnum]; exact hlookup

theorem fetchWord_pc_of_codeAt {s : State} {op : Word} {ws : List Word} (hc : CodeAt s (op :: ws)) :
    s.fetchWord s.pc = .ok op := by
  simpa using fetchWord_of_codeAt hc (k := 0) rfl

theorem fetchInstr_f0 {s : State} {op : Word} {row : Row} {i : Instr} (hop : s.fetchWord s.pc = .ok op)
    (hrow : lookupOpcode op = some row) (hshape : row.shape = .f0 i) : s.fetchInstr = .ok i := by
  simp only [State.fetchInstr, hop, hrow, hshape, bind, Except.bind]

theorem fetchInstr_f1 {s : State} {op a : Word} {row : Row} {make : Word → Instr} (hop : s.fetchWord s.pc = .ok op)
    (hrow : lookupOpcode op = some row) (hshape : row.shape = .f1 make) (ha : s.fetchWord (s.pc + 1#32) = .ok a) :
    s.fetchInstr = .ok (make a) := by
  simp only [State.fetchInstr, hop, hrow, hshape, ha, bind, Except.bind]

theorem fetchInstr_f2 {s : State} {op a b : Word} {row : Row} {make : Word → Word → Instr}
    (hop : s.fetchWord s.pc = .ok op) (hrow : lookupOpcode op = some row) (hshape : row.shape = .f2 make)
    (ha : s.fetchWord (s.pc + 1#32) = .ok a) (hb : s.fetchWord (s.pc + 2#32) = .ok b) :
    s.fetchInstr = .ok (make a b) := by
  simp only [State.fetchInstr, hop, hrow, hshape, ha, hb, bind, Except.bind]

/-- Everything a successful decoding can be: the row of the opcode word and, of its format, as many operand words. -/
theorem decode_ok_cases {ws rest : List Word} {i : Instr} (h : decode ws = .ok (i, rest)) :
    ∃ op row, lookupOpcode op = some row ∧
      ((row.shape = .f0 i ∧ ws = op :: rest) ∨
       (∃ make a, row.shape = .f1 make ∧ i = make a ∧ ws = op :: a :: rest) ∨
       (∃ make a b, row.shape = .f2 make ∧ i = make a b ∧ ws = op :: a :: b :: rest)) := by
  cases ws with
  | nil => simp [decode] at h
  | cons op tail =>
    cases hrow : lookupOpcode op with
    | none => simp [decode, hrow] at h
    | some row =>
      refine ⟨op, row, hrow, ?_⟩
      cases hshape : row.shape with
      | f0 j => simp_all [decode]
      | f1 make =>
        match tail with
        | [] => simp [decode, hrow, hshape] at h
        | a :: tail => simp_all [decode]
      | f2 make =>
        match tail with
        | [] => simp [decode, hrow, hshape] at h
        | [a] => simp [decode, hrow, hshape] at h
        | a :: b :: tail => simp_all [decode]

/-- The fetch gives the instruction that the words at PC decode to. -/
theorem fetchInstr_of_decode {s : State} {ws rest : List Word} {i : Instr} (hc : CodeAt s ws)
    (hd : decode ws = .ok (i, rest)) : s.fetchInstr = .ok i := by
  obtain ⟨op, row, hrow, ⟨hshape, rfl⟩ | ⟨make, a, hshape, rfl, rfl⟩ | ⟨make, a, b, hshape, rfl, rfl⟩⟩ :=
    decode_ok_cases hd
  · exact fetchInstr_f0 (fetchWord_pc_of_codeAt hc) hrow hshape
  · exact fetchInstr_f1 (fetchWord_pc_of_codeAt hc) hrow hshape (fetchWord_of_codeAt hc (k := 1) rfl)
  · exact fetchInstr_f2 (fetchWord_pc_of_codeAt hc) hrow hshape (fetchWord_of_codeAt hc (k := 1) rfl)
      (fetchWord_of_codeAt hc (k := 2) rfl)

-- Executing it.

/-- Every instruction has a rule that answers the next state or a fault; five have one that cannot fault. -/
theorem exec_eq_finish (i : Instr) (s : State) : ∃ r : Result State, exec i s = finish r := by
  cases i
  case ajs | bra | halt | nop | annote => exact ⟨.ok _, rfl⟩
  all_goals exact ⟨_, rfl⟩

theorem exec_not_refused (i : Instr) (s : State) (w : Refusal) : exec i s ≠ .refused w := by
  obtain ⟨r, hr⟩ := exec_eq_finish i s
  rw [hr]
  exact finish_not_refused r w

/-- Settles O8: the fetch gives the decoded instruction, and the step settles the outcome of its execution. -/
theorem stepRunsTheDecodedInstruction : Obligations.StepRunsTheDecodedInstruction := by
  intro s ws rest i hrun hcode hdecode
  have hstep : step s = settle s (exec i s) := step_of_fetched s i hrun (fetchInstr_of_decode hcode hdecode)
  refine ⟨fun t ht => ?next, fun f hf => ?fault, exec_not_refused i s⟩
  case next => rw [hstep, ht, settle_next]
  case fault => rw [hstep, hf, settle_fault, State.enterFaulted]

end Sys2Proof.Machine

/-!
PROOFS. The encoding (spec/30_encoding.md): the opcode words outside the map (R75) and the meta instruction `annote`
(R76).
-/

namespace Sys2Proof.Machine

-- Opcode words outside the map (R75).

/-- The 54 codes written out are those of the rows of the opcode map, in its order. -/
theorem opcodeTable_codes : opcodeTable.map Row.code = executableCodes := rfl

theorem lookupOpcode_eq_none_iff (op : Word) : lookupOpcode op = none ↔ op ∉ executableCodes := by
  rw [← opcodeTable_codes, lookupOpcode, List.find?_eq_none]
  simp only [decide_eq_true_eq, List.mem_map, not_exists, not_and]

theorem decode_illegal {op : Word} (h : op ∉ executableCodes) (rest : List Word) :
    decode (op :: rest) = .error (.illegal op) := by
  have hrow : lookupOpcode op = none := (lookupOpcode_eq_none_iff op).2 h
  simp only [decode, hrow]

theorem fetchInstr_illegal {s : State} {op : Word} (hop : s.fetchWord s.pc = .ok op) (h : op ∉ executableCodes) :
    s.fetchInstr = .error (.fault (.illegalInstruction op)) := by
  have hrow : lookupOpcode op = none := (lookupOpcode_eq_none_iff op).2 h
  simp only [State.fetchInstr, hop, hrow, bind, Except.bind]

/-- A running machine whose fetch faults becomes FAULTED (spec/60_exceptions.md R231). -/
theorem step_of_fetch_fault (s : State) (f : Fault) (hs : s.status = .running)
    (hf : s.fetchInstr = .error (.fault f)) : step s = .next (s.enterFaulted f) := by
  simp only [step, hs, hf, settle_fault]

/-- Settles O6: the opcode map has no row for the word, so the decoder refuses it and the fetch faults. -/
theorem wordsOutsideTheMapAreIllegal : Obligations.WordsOutsideTheMapAreIllegal := by
  intro op hop
  refine ⟨decode_illegal hop, fun s hrun hcode => ?step⟩
  case step =>
    have hfetch : s.fetchInstr = .error (.fault (.illegalInstruction op)) :=
      fetchInstr_illegal (fetchWord_pc_of_codeAt hcode) hop
    exact step_of_fetch_fault s _ hrun hfetch

-- The meta instruction (R76, R225).

theorem annote_code_not_executable : 0xff#32 ∉ executableCodes := by decide

/-- Settles O7: the code of `annote` is one of the words outside the map, and its rule is the identity. -/
theorem annoteHasNoWordsAndNoEffect : Obligations.AnnoteHasNoWordsAndNoEffect := by
  refine ⟨fun reg low high color text => ?noWords, decode_illegal annote_code_not_executable,
    fun reg low high color text s => ?noEffect⟩
  case noWords => rfl
  case noEffect => rfl

end Sys2Proof.Machine

/-!
PROOFS. Arithmetic and logic (spec/40_alu.md): what the two templates of R100 and R106 leave, change and raise, and the
results that the ten instructions put into them (R101 to R111).
-/

namespace Sys2Proof.Machine

-- One word written: what it leaves of the memory.

theorem wordAt_of_mem_insert {s t : State} {a v : Word} (h : t.mem = s.mem.insert a.toNat v) :
    t.wordAt a.toNat = v := by
  rw [State.wordAt, h, lookup_insert, if_pos rfl, Option.getD_some]

theorem sameMemoryBut_of_mem_insert {s t : State} {a v : Word} (h : t.mem = s.mem.insert a.toNat v) :
    SameMemoryBut s t (OneWord a) := by
  intro c hc
  have hne : c ≠ a.toNat := hc
  rw [State.wordAt, h, lookup_insert, if_neg hne, State.wordAt]

/-- A rule that first reads a word that does not exist stops there. -/
theorem finish_readWord_invalid {s : State} {a : Word} (h : ¬ ValidAddr a) (k : Word → Result State) :
    finish (s.readWord a >>= k) = .fault (.memoryRange .read a) := by
  rw [readWord_invalid s a h, bind_error, finish_error]

-- The two-operand template (R100).

section
variable {s : State}

theorem binaryOp_completes {f : Word → Word → Result Word} {r : Word} (htop : ValidAddr s.sp)
    (hdeep : ValidAddr (s.sp - 1#32)) (hr : f (s.wordAt (s.sp - 1#32).toNat) (s.wordAt s.sp.toNat) = .ok r) :
    ∃ t, finish (binaryOp f s) = .next t ∧ t.pc = s.pc + 1#32 ∧ t.sp = s.sp - 1#32 ∧
      t.wordAt (s.sp - 1#32).toNat = r ∧ Frame s t [.pc, .sp] (OneWord (s.sp - 1#32)) := by
  refine ⟨_, (finish_next_iff _ _).2 ((binaryOp_ok_iff f s _).2 ⟨htop, hdeep, r, hr, rfl⟩), rfl, rfl,
    wordAt_of_mem_insert rfl, ?registers, sameMemoryBut_of_mem_insert rfl, rfl, rfl, rfl, rfl⟩
  case registers =>
    intro q hq
    cases q <;> simp_all

theorem finish_binaryOp_error {f : Word → Word → Result Word} {e : Fault} (htop : ValidAddr s.sp)
    (hdeep : ValidAddr (s.sp - 1#32)) (he : f (s.wordAt (s.sp - 1#32).toNat) (s.wordAt s.sp.toNat) = .error e) :
    finish (binaryOp f s) = .fault e := by
  rw [binaryOp, readWord_valid s _ htop, bind_ok, readWord_valid s _ hdeep, bind_ok, he, bind_error, finish_error]

theorem finish_binaryOp_no_top (f : Word → Word → Result Word) (htop : ¬ ValidAddr s.sp) :
    finish (binaryOp f s) = .fault (.memoryRange .read s.sp) := finish_readWord_invalid htop _

theorem finish_binaryOp_no_deeper (f : Word → Word → Result Word) (htop : ValidAddr s.sp)
    (hdeep : ¬ ValidAddr (s.sp - 1#32)) : finish (binaryOp f s) = .fault (.memoryRange .read (s.sp - 1#32)) := by
  rw [binaryOp, readWord_valid s _ htop, bind_ok, finish_readWord_invalid hdeep]

end

/-- An instruction made of the two-operand template and a word function `g` that cannot fault follows the rule of every
relation that `g` meets. -/
theorem binaryRule_of_exec {i : Instr} {code : Word} {result : Word → Word → Word → Prop} {g : Word → Word → Word}
    (hcode : encode i = [code]) (hexec : ∀ s, exec i s = finish (binaryOp (fun v1 v2 => .ok (g v1 v2)) s))
    (hg : ∀ v1 v2, result v1 v2 (g v1 v2)) : BinaryRule i code result := by
  refine ⟨hcode, fun s => ?_⟩
  simp only [StopsAt, hexec]
  refine ⟨fun htop hdeep => ?completes, finish_binaryOp_no_top _, finish_binaryOp_no_deeper _⟩
  case completes =>
    obtain ⟨t, hnext, hpc, hsp, hword, hframe⟩ := binaryOp_completes (f := fun v1 v2 => .ok (g v1 v2)) htop hdeep rfl
    exact ⟨t, hnext, hpc, hsp, hword ▸ hg _ _, hframe⟩

/-- An instruction made of the two-operand template and an `f` that faults exactly on the divisor 0. -/
theorem divisionRule_of_exec {i : Instr} {code : Word} {result : Word → Word → Word → Prop}
    {f : Word → Word → Result Word} (hcode : encode i = [code]) (hexec : ∀ s, exec i s = finish (binaryOp f s))
    (hzero : ∀ v1, f v1 0#32 = .error .divideByZero)
    (hok : ∀ v1 v2, v2 ≠ 0#32 → ∃ r, f v1 v2 = .ok r ∧ result v1 v2 r) : DivisionRule i code result := by
  refine ⟨hcode, fun s => ?_⟩
  simp only [StopsAt, hexec]
  refine ⟨fun htop hdeep hne => ?completes, fun htop hdeep heq => ?zero, finish_binaryOp_no_top _,
    finish_binaryOp_no_deeper _⟩
  case completes =>
    obtain ⟨r, hr, hresult⟩ := hok (s.wordAt (s.sp - 1#32).toNat) _ hne
    obtain ⟨t, hnext, hpc, hsp, hword, hframe⟩ := binaryOp_completes htop hdeep hr
    exact ⟨t, hnext, hpc, hsp, hword ▸ hresult, hframe⟩
  case zero => exact finish_binaryOp_error htop hdeep (heq ▸ hzero _)

-- The six results that raise no fault of their own (R101, R102, R105, R108, R109, R110).

/-- Beside the library's `BitVec.ofInt_add` and `BitVec.ofInt_mul`: `w(n)` respects subtraction. -/
theorem wrap_sub (m n : Int) : wrap (m - n) = wrap m - wrap n := by
  rw [wrap, Int.sub_eq_add_neg, BitVec.ofInt_add, BitVec.ofInt_neg, BitVec.sub_eq_add_neg]

theorem wrap_toNat (v : Word) : wrap (v.toNat : Int) = v := by
  rw [wrap, BitVec.ofInt_natCast, BitVec.ofNat_toNat, BitVec.setWidth_eq]

theorem add_eq_ofNat (v1 v2 : Word) : v1 + v2 = BitVec.ofNat 32 (v1.toNat + v2.toNat) := by
  simp [BitVec.ofNat_add]

theorem mul_eq_ofNat (v1 v2 : Word) : v1 * v2 = BitVec.ofNat 32 (v1.toNat * v2.toNat) := by
  simp [BitVec.ofNat_mul]

theorem sub_eq_wrap (v1 v2 : Word) : v1 - v2 = wrap ((v1.toNat : Int) - (v2.toNat : Int)) := by
  rw [wrap_sub, wrap_toNat, wrap_toNat]

/-- Settles O20: each of the six is the two-operand template with its own word function. -/
theorem twoOperandResults : Obligations.TwoOperandResults := by
  refine ⟨binaryRule_of_exec rfl (fun _ => rfl) add_eq_ofNat, binaryRule_of_exec rfl (fun _ => rfl) mul_eq_ofNat,
    binaryRule_of_exec rfl (fun _ => rfl) sub_eq_wrap, binaryRule_of_exec rfl (fun _ => rfl) fun v1 v2 k _ => ?and,
    binaryRule_of_exec rfl (fun _ => rfl) fun v1 v2 k _ => ?or,
    binaryRule_of_exec rfl (fun _ => rfl) fun v1 v2 k _ => ?xor⟩
  case and => exact BitVec.getLsbD_and
  case or => exact BitVec.getLsbD_or
  case xor => exact BitVec.getLsbD_xor

-- The one-operand template (R106, R107).

theorem replaceTop_completes {s : State} {len : Word} {f : Word → Result Word} {r : Word} (htop : ValidAddr s.sp)
    (hr : f (s.wordAt s.sp.toNat) = .ok r) :
    ∃ t, finish (replaceTop len f s) = .next t ∧ t.pc = s.pc + len ∧ t.wordAt s.sp.toNat = r ∧
      Frame s t [.pc] (OneWord s.sp) := by
  refine ⟨_, (finish_next_iff _ _).2 ((replaceTop_ok_iff len f s _).2 ⟨htop, r, hr, rfl⟩), rfl,
    wordAt_of_mem_insert rfl, ?registers, sameMemoryBut_of_mem_insert rfl, rfl, rfl, rfl, rfl⟩
  case registers =>
    intro q hq
    cases q <;> simp_all

/-- An instruction made of the one-operand template and a word function `g` that cannot fault follows the rule of every
relation that `g` meets. -/
theorem unaryRule_of_exec {i : Instr} {code : Word} {result : Word → Word → Prop} {g : Word → Word}
    (hcode : encode i = [code]) (hexec : ∀ s, exec i s = finish (replaceTop 1#32 (fun v => .ok (g v)) s))
    (hg : ∀ v, result v (g v)) : UnaryRule i code result := by
  refine ⟨hcode, fun s => ?_⟩
  simp only [StopsAt, hexec]
  refine ⟨fun htop => ?completes, fun htop => finish_readWord_invalid htop _⟩
  case completes =>
    obtain ⟨t, hnext, hpc, hword, hframe⟩ := replaceTop_completes (len := 1#32) (f := fun v => .ok (g v)) htop rfl
    exact ⟨t, hnext, hpc, hword ▸ hg _, hframe⟩

theorem zero_sub_eq_wrap (v : Word) : 0#32 - v = wrap (0 - (v.toNat : Int)) := by
  rw [wrap_sub, wrap_toNat]
  rfl

theorem xor_ones_eq_not (v : Word) : v ^^^ 0xFFFFFFFF#32 = ~~~v := BitVec.xor_allOnes

theorem getLsbD_xor_ones (v : Word) {k : Nat} (hk : k < 32) : (v ^^^ 0xFFFFFFFF#32).getLsbD k = !v.getLsbD k := by
  simp [xor_ones_eq_not, hk]

/-- Settles O21: both are the one-operand template, `not` as the exclusive or with all ones. -/
theorem oneOperandResults : Obligations.OneOperandResults :=
  ⟨unaryRule_of_exec rfl (fun _ => rfl) zero_sub_eq_wrap,
    unaryRule_of_exec rfl (fun _ => rfl) fun v _ hk => getLsbD_xor_ones v hk⟩

-- Division (R103, R104).

theorem divWords_zero (v1 : Word) : divWords v1 0#32 = .error .divideByZero := if_pos rfl

theorem modWords_zero (v1 : Word) : modWords v1 0#32 = .error .divideByZero := if_pos rfl

theorem divWords_nonzero (v1 : Word) {v2 : Word} (h : v2 ≠ 0#32) :
    divWords v1 v2 = .ok (wrap (Int.tdiv v1.toInt v2.toInt)) := if_neg h

theorem modWords_nonzero (v1 : Word) {v2 : Word} (h : v2 ≠ 0#32) :
    modWords v1 v2 = .ok (wrap (v1.toInt - Int.tdiv v1.toInt v2.toInt * v2.toInt)) := if_neg h

/-- The word that `mod` leaves is the library's truncating remainder of words, so it wraps nothing. -/
theorem wrap_remainder_eq_srem (v1 v2 : Word) :
    wrap (v1.toInt - Int.tdiv v1.toInt v2.toInt * v2.toInt) = v1.srem v2 := by
  rw [Int.mul_comm, ← Int.tmod_def, ← BitVec.toInt_srem, wrap, BitVec.ofInt_toInt]

/-- The division identity, which holds modulo 2^32 because `wrap` respects the three operations. -/
theorem eq_wrap_quotient_mul_add_remainder (v1 v2 : Word) (q : Int) :
    v1 = wrap q * v2 + wrap (v1.toInt - q * v2.toInt) := by
  calc
    v1 = wrap (q * v2.toInt + (v1.toInt - q * v2.toInt)) := by
      rw [add_sub_cancel, wrap, BitVec.ofInt_toInt]
    _ = wrap q * v2 + wrap (v1.toInt - q * v2.toInt) := by
      rw [wrap, BitVec.ofInt_add, BitVec.ofInt_mul, BitVec.ofInt_toInt]

/-- Settles O22: the two-operand template with `divWords`. -/
theorem divisionResult : Obligations.DivisionResult :=
  divisionRule_of_exec rfl (fun _ => rfl) divWords_zero fun v1 _ hne => ⟨_, divWords_nonzero v1 hne, rfl⟩

/-- Settles O23: the two-operand template with `modWords`, whose word is the truncating remainder and meets the division
identity for the quotient of `div`. -/
theorem remainderResult : Obligations.RemainderResult := by
  refine divisionRule_of_exec rfl (fun _ => rfl) modWords_zero fun v1 v2 hne =>
    ⟨_, modWords_nonzero v1 hne, rfl, ?truncating, eq_wrap_quotient_mul_add_remainder v1 v2 _⟩
  case truncating => rw [wrap_remainder_eq_srem, BitVec.toInt_srem]

end Sys2Proof.Machine

/-!
PROOFS. Comparison (spec/41_compare.md): the word that encodes a truth value, and the six instructions as the
two-operand template with that word as its result (R120 to R127).
-/

namespace Sys2Proof.Machine

-- The encoding of truth (R120).

theorem truthWord_decide_true {p : Prop} [Decidable p] (h : p) : truthWord (decide p) = 0xFFFFFFFF#32 := by
  rw [decide_eq_true h, truthWord, if_pos rfl, Config.trueWord]

theorem truthWord_decide_false {p : Prop} [Decidable p] (h : ¬ p) : truthWord (decide p) = 0x00000000#32 := by
  rw [decide_eq_false h, truthWord, if_neg Bool.false_ne_true, Config.falseWord]

-- The six comparisons (R121 to R127).

/-- An instruction made of the comparison template and the test of `rel` follows the rule of `rel`. -/
theorem comparisonRule_of_exec {i : Instr} {code : Word} {rel : Word → Word → Prop} [DecidableRel rel]
    (hcode : encode i = [code]) (hexec : ∀ s, exec i s = finish (compareOp (fun v1 v2 => decide (rel v1 v2)) s)) :
    ComparisonRule i code rel :=
  binaryRule_of_exec hcode hexec fun _ _ => ⟨truthWord_decide_true, truthWord_decide_false⟩

/-- Settles O24: each of the six is the comparison template with the test of its own relation; `gt` and `ge` test the
signed order with its sides exchanged, which is what `>` and `≥` say. -/
theorem comparisonResults : Obligations.ComparisonResults := by
  refine ⟨?eq, ?ne, ?lt, ?gt, ?le, ?ge⟩
  case eq => exact comparisonRule_of_exec rfl fun _ => rfl
  case ne => exact comparisonRule_of_exec rfl fun _ => rfl
  case lt => exact comparisonRule_of_exec rfl fun _ => rfl
  case gt => exact comparisonRule_of_exec rfl fun _ => rfl
  case le => exact comparisonRule_of_exec rfl fun _ => rfl
  case ge => exact comparisonRule_of_exec rfl fun _ => rfl

end Sys2Proof.Machine

/-!
PROOFS. Control transfer (spec/42_control.md): `bra`, `nop` and `halt`, the conditional branches, the two calls and the
return (R130 to R137).
-/

namespace Sys2Proof.Machine

-- Building a frame along the updates of a rule (spec/00_scope.md R3).

theorem frame_refl (s : State) (changed : List Reg) (stored : Nat → Prop) : Frame s s changed stored :=
  ⟨fun _ _ => rfl, fun _ _ => rfl, rfl, rfl, rfl, rfl⟩

section
variable {s t : State} {changed : List Reg} {stored : Nat → Prop}

/-- A write of a register that may change keeps the frame. -/
theorem frame_setReg (h : Frame s t changed stored) {r : Reg} (hr : r ∈ changed) (v : Word) :
    Frame s (t.setReg r v) changed stored := by
  obtain ⟨hregs, hmem, hstatus, houtput, hfiles, hdrawn⟩ := h
  refine ⟨fun q hq => ?register, fun a ha => ?word, ?_, ?_, ?_, ?_⟩
  case register =>
    have hne : q ≠ r := fun e => hq (e ▸ hr)
    rw [setReg_reg_other t r q v hne, hregs q hq]
  case word => rw [setReg_wordAt, hmem a ha]
  all_goals simpa

/-- A write of one word that may be stored keeps the frame. -/
theorem frame_insert (h : Frame s t changed stored) {a : Nat} (ha : stored a) (v : Word) :
    Frame s { t with mem := t.mem.insert a v } changed stored := by
  obtain ⟨hregs, hmem, henv⟩ := h
  refine ⟨fun q hq => ?register, fun c hc => ?word, henv⟩
  case register =>
    rw [← hregs q hq]
    cases q <;> rfl
  case word =>
    have hne : c ≠ a := fun e => hc (e ▸ ha)
    rw [wordAt_insert, if_neg hne, hmem c hc]

end

theorem frame_insert_word (s : State) (changed : List Reg) (a v : Word) :
    Frame s { s with mem := s.mem.insert a.toNat v } changed (OneWord a) :=
  frame_insert (frame_refl s changed _) (show OneWord a a.toNat from rfl) v

-- The target of a branch (R139).

/-- Counting from the following instruction, modulo 2^32. -/
theorem branchTarget_eq_ofNat (s : State) (a : Word) :
    branchTarget s a = BitVec.ofNat 32 (s.pc.toNat + 2 + a.toNat) := by
  simp [branchTarget, BitVec.ofNat_add]

-- The instructions that cannot fault (R130, R134, R136).

theorem exec_bra (a : Word) (s : State) : exec (.bra a) s = .next { s with pc := branchTarget s a } := rfl

theorem exec_nop (s : State) : exec .nop s = .next (s.advance 1#32) := rfl

theorem exec_halt (s : State) : exec .halt s = .next { s.advance 1#32 with status := .halted } := rfl

/-- Settles O25: the three rules answer a next state outright; `halt` is the advance of PC with another status. -/
theorem braNopAndHalt : Obligations.BraNopAndHalt := by
  refine ⟨fun _ => rfl, rfl, rfl, fun s => ⟨fun a => ?bra, exec_nop s, _, exec_halt s, rfl, fun r hr => ?register,
    rfl, rfl, rfl, rfl⟩⟩
  case bra => rw [exec_bra, branchTarget_eq_ofNat]
  case register => exact advance_reg s 1#32 r (List.ne_of_not_mem_cons hr)

-- Pop and go on (R131, R132, R137).

/-- The state after a rule that pops one word and goes on at `dst`; `brf`, `brt` and `ret` all answer it. -/
def State.popTo (s : State) (dst : Word) : State := { s with sp := s.sp - 1#32, pc := dst }

@[simp] theorem popTo_pc (s : State) (dst : Word) : (s.popTo dst).pc = dst := rfl
@[simp] theorem popTo_sp (s : State) (dst : Word) : (s.popTo dst).sp = s.sp - 1#32 := rfl

theorem frame_popTo (s : State) (dst : Word) : Frame s (s.popTo dst) [.pc, .sp] NoWord :=
  frame_setReg (r := .pc) (frame_setReg (r := .sp) (frame_refl s _ _) (by decide) (s.sp - 1#32)) (by decide) dst

section
variable {s : State}

/-- A rule that pops one word and whose use of it only sets PC. -/
theorem finish_popWord_eq_popTo {len dst : Word} {use : Word → State → State} (htop : ValidAddr s.sp)
    (huse : use (s.wordAt s.sp.toNat) (s.popTo (s.pc + len)) = s.popTo dst) :
    finish (popWord len use s) = .next (s.popTo dst) :=
  (finish_next_iff _ _).2 ((popWord_ok_iff len use s _).2 ⟨htop, huse.symm⟩)

theorem finish_popWord_no_top (len : Word) (use : Word → State → State) (htop : ¬ ValidAddr s.sp) :
    finish (popWord len use s) = .fault (.memoryRange .read s.sp) := finish_readWord_invalid htop _

/-- The test of `brf` and `brt` is a comparison with the word 0. -/
theorem ite_countsAsTrue (w : Word) (onTrue onFalse : State) :
    (if countsAsTrue w then onTrue else onFalse) = if w = 0#32 then onFalse else onTrue := by
  by_cases h : w = 0#32
  · have hfalse : countsAsTrue w = false := decide_eq_false (not_not_intro h)
    rw [hfalse, if_neg Bool.false_ne_true, if_pos h]
  · have htrue : countsAsTrue w = true := decide_eq_true h
    rw [htrue, if_pos rfl, if_neg h]

/-- `brf` jumps exactly on the word 0. -/
theorem exec_brf (a : Word) (htop : ValidAddr s.sp) :
    exec (.brf a) s =
      .next (s.popTo (if s.wordAt s.sp.toNat = 0#32 then branchTarget s a else s.pc + 2#32)) :=
  finish_popWord_eq_popTo htop ((ite_countsAsTrue _ _ _).trans (apply_ite s.popTo _ _ _).symm)

/-- `brt` jumps exactly on a word other than 0. -/
theorem exec_brt (a : Word) (htop : ValidAddr s.sp) :
    exec (.brt a) s =
      .next (s.popTo (if s.wordAt s.sp.toNat = 0#32 then s.pc + 2#32 else branchTarget s a)) :=
  finish_popWord_eq_popTo htop ((ite_countsAsTrue _ _ _).trans (apply_ite s.popTo _ _ _).symm)

theorem exec_ret (htop : ValidAddr s.sp) : exec .ret s = .next (s.popTo (s.wordAt s.sp.toNat)) :=
  finish_popWord_eq_popTo htop rfl

end

/-- Settles O26: both pop the top and choose PC by its comparison with 0, each the other's way round. -/
theorem conditionalBranches : Obligations.ConditionalBranches := by
  refine fun a => ⟨rfl, rfl, fun s => ⟨fun htop => ⟨?brf, ?brt⟩, fun htop => ?stop⟩⟩
  case brf =>
    refine ⟨_, exec_brf a htop, rfl, frame_popTo s _, fun h => ?zero, fun h => ?nonzero⟩
    case zero => rw [popTo_pc, if_pos h, branchTarget_eq_ofNat]
    case nonzero => rw [popTo_pc, if_neg h]
  case brt =>
    refine ⟨_, exec_brt a htop, rfl, frame_popTo s _, fun h => ?nonzero, fun h => ?zero⟩
    case nonzero => rw [popTo_pc, if_neg h, branchTarget_eq_ofNat]
    case zero => rw [popTo_pc, if_pos h]
  case stop => exact ⟨finish_popWord_no_top _ _ htop, finish_popWord_no_top _ _ htop⟩

-- The calls (R133, R135).

theorem frame_insert_pc (s : State) (a v dst : Word) :
    Frame s { s with mem := s.mem.insert a.toNat v, pc := dst } [.pc] (OneWord a) :=
  frame_setReg (r := .pc) (frame_insert_word s [.pc] a v) (by decide) dst

theorem frame_insert_sp_pc (s : State) (a v sp' dst : Word) :
    Frame s { s with mem := s.mem.insert a.toNat v, sp := sp', pc := dst } [.pc, .sp] (OneWord a) :=
  frame_setReg (r := .pc) (frame_setReg (r := .sp) (frame_insert_word s [.pc, .sp] a v) (by decide) sp')
    (by decide) dst

theorem pushWord_invalid (len v : Word) {s : State} (h : ¬ ValidAddr (s.sp + 1#32)) :
    pushWord len v s = .error (.memoryRange .write (s.sp + 1#32)) := by
  rw [pushWord, writeWord_invalid s _ v h, bind_error]

theorem exec_bsr_eq_finish (a : Word) (s : State) :
    exec (.bsr a) s =
      finish (pushWord 2#32 (s.pc + 2#32) s >>= fun t => .ok { t with pc := branchTarget s a }) := rfl

section
variable {s : State}

theorem exec_bsr (a : Word) (hfree : ValidAddr (s.sp + 1#32)) :
    exec (.bsr a) s = .next { s with
      mem := s.mem.insert (s.sp + 1#32).toNat (s.pc + 2#32), sp := s.sp + 1#32, pc := branchTarget s a } := by
  rw [exec_bsr_eq_finish, (pushWord_ok_iff _ _ s _).2 ⟨hfree, rfl⟩, bind_ok, finish_ok]

theorem exec_bsr_no_free (a : Word) (hfree : ¬ ValidAddr (s.sp + 1#32)) :
    exec (.bsr a) s = .fault (.memoryRange .write (s.sp + 1#32)) := by
  rw [exec_bsr_eq_finish, pushWord_invalid _ _ hfree, bind_error, finish_error]

theorem exec_jsr (htop : ValidAddr s.sp) :
    exec .jsr s = .next { s with
      mem := s.mem.insert s.sp.toNat (s.pc + 1#32), pc := s.wordAt s.sp.toNat } := by
  rw [exec, execJsr, readWord_valid s _ htop, bind_ok, writeWord_valid s _ _ htop, bind_ok, finish_ok, following_eq]

theorem exec_jsr_no_top (htop : ¬ ValidAddr s.sp) : exec .jsr s = .fault (.memoryRange .read s.sp) :=
  finish_readWord_invalid htop _

end

/-- Settles O27: a push of the address of the following instruction, then the jump. -/
theorem branchToSubroutine : Obligations.BranchToSubroutine := by
  refine fun a => ⟨rfl, fun s => ⟨fun hfree => ?completes, exec_bsr_no_free a⟩⟩
  case completes =>
    exact ⟨_, exec_bsr a hfree, branchTarget_eq_ofNat s a, rfl, wordAt_of_mem_insert rfl,
      frame_insert_sp_pc s _ _ _ _⟩

/-- Settles O28: both jump to the top of the stack as it was; `jsr` writes the return address over it, `ret` pops it. -/
theorem jumpToSubroutineAndReturn : Obligations.JumpToSubroutineAndReturn := by
  refine ⟨rfl, rfl, fun s => ⟨fun htop => ⟨?jsr, ?ret⟩, fun htop => ?stop⟩⟩
  case jsr => exact ⟨_, exec_jsr htop, rfl, wordAt_of_mem_insert rfl, frame_insert_pc s _ _ _⟩
  case ret => exact ⟨_, exec_ret htop, rfl, rfl, frame_popTo s _⟩
  case stop => exact ⟨exec_jsr_no_top htop, finish_popWord_no_top _ _ htop⟩

end Sys2Proof.Machine

/-!
PROOFS. Stack adjustment and frames (spec/43_stack.md): `ajs`, `link`, `swp` and `unlink` (R150 to R153).
-/

namespace Sys2Proof.Machine

-- `ajs` (R150).

/-- A displacement added to a base as the spec writes it, `w(u(base) + s(a))` (spec/20_memory.md R49). -/
theorem displaced_eq_wrap (base a : Word) : displaced base a = wrap ((base.toNat : Int) + a.toInt) := by
  calc
    displaced base a = wrap (base.toNat : Int) + wrap a.toInt := by
      rw [wrap_toNat, wrap, BitVec.ofInt_toInt, displaced]
    _ = wrap ((base.toNat : Int) + a.toInt) := (BitVec.ofInt_add _ _).symm

theorem exec_ajs (a : Word) (s : State) :
    exec (.ajs a) s = .next { s with sp := displaced s.sp a, pc := s.pc + 2#32 } := rfl

/-- Settles O30: the rule answers a next state outright, and its displacement is the signed sum modulo 2^32. -/
theorem adjustStack : Obligations.AdjustStack := by
  refine fun a => ⟨rfl, fun s => ?_⟩
  rw [exec_ajs, displaced_eq_wrap]

-- `link` (R151).

section
variable {s : State}

theorem exec_link (a : Word) (hfree : ValidAddr (s.sp + 1#32)) :
    exec (.link a) s = .next { s with
      mem := s.mem.insert (s.sp + 1#32).toNat s.mp
      mp := s.sp + 1#32
      sp := s.sp + 1#32 + a
      pc := s.pc + 2#32 } := by
  rw [exec, execLink, writeWord_valid s _ _ hfree, bind_ok, finish_ok, following_eq, displaced]

theorem exec_link_no_free (a : Word) (hfree : ¬ ValidAddr (s.sp + 1#32)) :
    exec (.link a) s = .fault (.memoryRange .write (s.sp + 1#32)) := by
  rw [exec, execLink, writeWord_invalid s _ _ hfree, bind_error, finish_error]

end

/-- The three registers of `link` and `unlink` may change together. -/
theorem frame_mp_sp_pc {s t : State} {stored : Nat → Prop} (h : Frame s t [.pc, .sp, .mp] stored)
    (mp' sp' pc' : Word) : Frame s { t with mp := mp', sp := sp', pc := pc' } [.pc, .sp, .mp] stored :=
  frame_setReg (r := .pc) (frame_setReg (r := .sp) (frame_setReg (r := .mp) h (by decide) mp') (by decide) sp')
    (by decide) pc'

/-- Settles O31: one word is written, the saved MP; the words reserved above it are not. -/
theorem linkFrame : Obligations.LinkFrame := by
  refine fun a => ⟨rfl, fun s => ⟨fun hfree => ?completes, exec_link_no_free a⟩⟩
  case completes =>
    exact ⟨_, exec_link a hfree, rfl, rfl, rfl, wordAt_of_mem_insert rfl,
      frame_mp_sp_pc (frame_insert_word s _ _ _) _ _ _⟩

-- `swp` (R152).

theorem toNat_ne_toNat_sub_one (a : Word) : a.toNat ≠ (a - 1#32).toNat := by
  bv_omega

/-- After writes of two words the one written first still reads as written, where their addresses differ. -/
theorem wordAt_of_mem_insert_insert {s t : State} {a b v w : Word}
    (h : t.mem = (s.mem.insert a.toNat v).insert b.toNat w) (hne : a.toNat ≠ b.toNat) : t.wordAt a.toNat = v := by
  rw [State.wordAt, h, lookup_insert, if_neg hne, lookup_insert, if_pos rfl, Option.getD_some]

section
variable {s : State}

theorem exec_swp (htop : ValidAddr s.sp) (hdeep : ValidAddr (s.sp - 1#32)) :
    exec .swp s = .next { s with
      mem := (s.mem.insert s.sp.toNat (s.wordAt (s.sp - 1#32).toNat)).insert (s.sp - 1#32).toNat
        (s.wordAt s.sp.toNat)
      pc := s.pc + 1#32 } := by
  rw [exec, execSwp, readWord_valid s _ htop, bind_ok, readWord_valid s _ hdeep, bind_ok, writeWord_valid s _ _ htop,
    bind_ok, writeWord_valid _ _ _ hdeep, bind_ok, finish_ok, following_eq]

theorem exec_swp_no_top (htop : ¬ ValidAddr s.sp) : exec .swp s = .fault (.memoryRange .read s.sp) :=
  finish_readWord_invalid htop _

theorem exec_swp_no_deeper (htop : ValidAddr s.sp) (hdeep : ¬ ValidAddr (s.sp - 1#32)) :
    exec .swp s = .fault (.memoryRange .read (s.sp - 1#32)) := by
  rw [exec, execSwp, readWord_valid s _ htop, bind_ok, finish_readWord_invalid hdeep]

end

theorem frame_insert_insert_pc (s : State) (a v b w dst : Word) :
    Frame s { s with mem := (s.mem.insert a.toNat v).insert b.toNat w, pc := dst } [.pc]
      (BothOf (OneWord a) (OneWord b)) := by
  have hfirst : Frame s { s with mem := s.mem.insert a.toNat v } [.pc] (BothOf (OneWord a) (OneWord b)) :=
    frame_insert (frame_refl s _ _) (Or.inl rfl) v
  exact frame_setReg (r := .pc) (frame_insert hfirst (Or.inr rfl) w) (by decide) dst

-- `unlink` (R153).

section
variable {s : State}

theorem exec_unlink (hmp : ValidAddr s.mp) :
    exec .unlink s = .next { s with mp := s.wordAt s.mp.toNat, sp := s.mp - 1#32, pc := s.pc + 1#32 } := by
  rw [exec, execUnlink, readWord_valid s _ hmp, bind_ok, finish_ok, following_eq]

theorem exec_unlink_no_saved (hmp : ¬ ValidAddr s.mp) : exec .unlink s = .fault (.memoryRange .read s.mp) :=
  finish_readWord_invalid hmp _

end

/-- Settles O32: `swp` writes both words after both reads, at two different addresses; `unlink` writes no memory. -/
theorem swapAndUnlink : Obligations.SwapAndUnlink := by
  refine ⟨rfl, rfl, fun s => ⟨fun htop hdeep => ?swp, exec_swp_no_top, exec_swp_no_deeper, fun hmp => ?unlink,
    exec_unlink_no_saved⟩⟩
  case swp =>
    refine ⟨_, exec_swp htop hdeep, rfl, ?top, ?deeper, frame_insert_insert_pc s _ _ _ _ _⟩
    case top => exact wordAt_of_mem_insert_insert (s := s) rfl (toNat_ne_toNat_sub_one s.sp)
    case deeper =>
      exact wordAt_of_mem_insert (s := { s with mem := s.mem.insert s.sp.toNat _ }) rfl
  case unlink =>
    exact ⟨_, exec_unlink hmp, rfl, rfl, rfl, frame_mp_sp_pc (frame_refl s _ _) _ _ _⟩

end Sys2Proof.Machine

/-!
PROOFS. The loads (spec/44_load.md): the rules of a push, of a push from memory, of a dereference and of a block move, each
from the shared movement that performs it, and the ten loads made of them (R160 to R169).
-/

namespace Sys2Proof.Machine

-- Pushing one word (R162, R163, R164, R168, R169).

/-- An instruction made of a push of the word `v s` follows the rule of `v`. -/
theorem pushRule_of_exec {i : Instr} {code a : Word} {v : State → Word} (hcode : encode i = [code, a])
    (hexec : ∀ s, exec i s = finish (pushWord 2#32 (v s) s)) : PushRule i code a v := by
  refine ⟨hcode, fun s => ?_⟩
  simp only [StopsAt, hexec]
  refine ⟨fun hfree => ?completes, fun hfree => ?stops⟩
  case completes =>
    exact ⟨_, (finish_next_iff _ _).2 ((pushWord_ok_iff _ _ s _).2 ⟨hfree, rfl⟩), rfl, rfl, wordAt_of_mem_insert rfl,
      frame_insert_sp_pc s _ _ _ _⟩
  case stops => rw [pushWord_invalid _ _ hfree, finish_error]

/-- An instruction made of a push from the address `src s` follows the rule of `src`: the source is read before the free
word is written. -/
theorem pushFromRule_of_exec {i : Instr} {code a : Word} {src : State → Word} (hcode : encode i = [code, a])
    (hexec : ∀ s, exec i s = finish (pushFrom 2#32 (src s) s)) : PushFromRule i code a src := by
  refine ⟨hcode, fun s => ?_⟩
  simp only [StopsAt, hexec]
  refine ⟨fun hsrc hfree => ?completes, fun hsrc => finish_readWord_invalid hsrc _, fun hsrc hfree => ?noFree⟩
  case completes =>
    exact ⟨_, (finish_next_iff _ _).2 ((pushFrom_ok_iff _ _ s _).2 ⟨hsrc, hfree, rfl⟩), rfl, rfl,
      wordAt_of_mem_insert rfl, frame_insert_sp_pc s _ _ _ _⟩
  case noFree => rw [pushFrom, readWord_valid s _ hsrc, bind_ok, pushWord_invalid _ _ hfree, finish_error]

theorem exec_ldla (a : Word) (s : State) : exec (.ldla a) s = finish (pushWord 2#32 (displaced s.mp a) s) := rfl

theorem exec_ldsa (a : Word) (s : State) : exec (.ldsa a) s = finish (pushWord 2#32 (displaced s.sp a) s) := rfl

theorem exec_ldl (a : Word) (s : State) : exec (.ldl a) s = finish (pushFrom 2#32 (displaced s.mp a) s) := rfl

theorem exec_lds (a : Word) (s : State) : exec (.lds a) s = finish (pushFrom 2#32 (displaced s.sp a) s) := rfl

/-- Settles O34: each of the three is a push, of the operand or of the address it makes with MP or SP. -/
theorem constantAndAddressLoads : Obligations.ConstantAndAddressLoads := by
  refine fun a => ⟨pushRule_of_exec rfl fun _ => rfl, pushRule_of_exec rfl fun s => ?ldla,
    pushRule_of_exec rfl fun s => ?ldsa⟩
  case ldla => rw [exec_ldla, displaced_eq_wrap]
  case ldsa => rw [exec_ldsa, displaced_eq_wrap]

/-- Settles O35: both are a push from memory, at the address that the operand makes with MP or SP. -/
theorem localAndStackLoads : Obligations.LocalAndStackLoads := by
  refine fun a => ⟨pushFromRule_of_exec rfl fun s => ?ldl, pushFromRule_of_exec rfl fun s => ?lds⟩
  case ldl => rw [exec_ldl, displaced_eq_wrap]
  case lds => rw [exec_lds, displaced_eq_wrap]

-- Replacing the pointer on top (R160, R161).

/-- An instruction that replaces the top of the stack by the word it points to, displaced by `a`, follows the rule of a
dereference. -/
theorem dereferenceRule_of_exec {i : Instr} {code a : Word} (hcode : encode i = [code, a])
    (hexec : ∀ s, exec i s = finish (replaceTop 2#32 (fun p => s.readWord (displaced p a)) s)) :
    DereferenceRule i code a := by
  refine ⟨hcode, fun s => ?_⟩
  simp only [StopsAt, hexec]
  refine ⟨fun htop hptr => replaceTop_completes htop (readWord_valid s _ hptr),
    fun htop => finish_readWord_invalid htop _, fun htop hptr => ?noTarget⟩
  case noTarget =>
    rw [replaceTop, readWord_valid s _ htop, bind_ok]
    exact finish_readWord_invalid hptr _

theorem exec_ldaa_no_top (a : Word) {s : State} (htop : ¬ ValidAddr s.sp) :
    exec (.ldaa a) s = .fault (.memoryRange .read s.sp) := finish_readWord_invalid htop _

/-- Settles O36: both replace the top, `lda` by a word of memory and `ldaa` by the sum itself, which is not read. -/
theorem pointerLoads : Obligations.PointerLoads := by
  refine fun a => ⟨dereferenceRule_of_exec rfl fun _ => rfl, rfl, fun s => ⟨fun htop => ?ldaa, exec_ldaa_no_top a⟩⟩
  case ldaa =>
    obtain ⟨t, hnext, hpc, hword, hframe⟩ :=
      replaceTop_completes (len := 2#32) (f := fun p => .ok (displaced p a)) htop rfl
    exact ⟨t, hnext, hpc, hword.trans (displaced_eq_wrap _ a), hframe⟩

-- Moving a block (R165, R166, R167; spec/20_memory.md R44, R45).

section
variable {s t : State} {dst : Word} {vs : List Word}

theorem wordAt_of_mem_insertMany (h : t.mem = s.mem.insertMany dst.toNat vs) {k : Nat} (hk : k < vs.length) :
    t.wordAt (dst.toNat + k) = vs.getD k 0 := by
  have hin : dst.toNat ≤ dst.toNat + k ∧ dst.toNat + k < dst.toNat + vs.length := by omega
  rw [wordAt_congr { s with mem := s.mem.insertMany dst.toNat vs } t h, wordAt_insertMany, if_pos hin,
    Nat.add_sub_cancel_left]

/-- A write of consecutive words that may be stored keeps the frame. -/
theorem frame_insertMany {changed : List Reg} {stored : Nat → Prop} (h : Frame s t changed stored)
    (hs : ∀ c, BlockOf dst vs.length c → stored c) :
    Frame s { t with mem := t.mem.insertMany dst.toNat vs } changed stored := by
  obtain ⟨hregs, hmem, henv⟩ := h
  refine ⟨fun q hq => ?register, fun c hc => ?word, henv⟩
  case register =>
    rw [← hregs q hq]
    cases q <;> rfl
  case word =>
    have hout : ¬ (dst.toNat ≤ c ∧ c < dst.toNat + vs.length) := fun hin => hc (hs c hin)
    rw [wordAt_insertMany, if_neg hout, hmem c hc]

end

theorem frame_insertMany_sp_pc (s : State) (dst : Word) (vs : List Word) (sp' pc' : Word) :
    Frame s { s with mem := s.mem.insertMany dst.toNat vs, sp := sp', pc := pc' } [.pc, .sp] (BlockOf dst vs.length) :=
  frame_setReg (r := .pc)
    (frame_setReg (r := .sp) (frame_insertMany (frame_refl s _ _) fun _ hc => hc) (by decide) sp') (by decide) pc'

/-- An instruction that is a block move in `s` follows the rule of the move: what stands at the destination was read before
anything was written, so overlapping blocks need no case of their own. -/
theorem movesBlock_of_exec {i : Instr} {s : State} {n : Nat} {src dst sp' : Word}
    (hexec : exec i s = finish (moveBlock 3#32 n src dst sp' s)) : MovesBlock i s n src dst sp' := by
  simp only [MovesBlock, StopsAt, hexec, finish_fault_iff]
  refine ⟨fun hsrc hdst => ?completes, moveBlock_bad_source _ n src dst sp' s,
    moveBlock_bad_destination _ n src dst sp' s⟩
  case completes =>
    refine ⟨_, (finish_next_iff _ _).2 ((moveBlock_ok_iff _ n src dst sp' s _).2 ⟨hsrc, hdst, rfl⟩), rfl, rfl,
      fun k hk => ?word, ?frame⟩
    case word =>
      rw [wordAt_of_mem_insertMany (s := s) rfl (by rwa [blockWords_length]), blockWords_getD s src n k hk]
    case frame => simpa only [blockWords_length] using frame_insertMany_sp_pc s dst (blockWords s src n) sp' _

-- The size operand (spec/30_encoding.md R73).

theorem finish_sizeOperand_negative {b : Word} (h : b.toInt < 0) (k : Nat → Result State) :
    finish (sizeOperand b >>= k) = .fault (.operandRange b) := by
  rw [sizeOperand_negative b h, bind_error, finish_error]

theorem finish_sizeOperand_valid {b : Word} (h : 0 ≤ b.toInt) (k : Nat → Result State) :
    finish (sizeOperand b >>= k) = finish (k b.toNat) := by
  rw [sizeOperand_valid b h, bind_ok]

section
variable {b : Word} {s : State}

theorem exec_ldml (a : Word) (hb : 0 ≤ b.toInt) :
    exec (.ldml a b) s = finish (moveBlock 3#32 b.toNat (s.mp + a) (s.sp + 1#32) (s.sp + b) s) :=
  finish_sizeOperand_valid hb _

theorem exec_ldms (a : Word) (hb : 0 ≤ b.toInt) :
    exec (.ldms a b) s = finish (moveBlock 3#32 b.toNat (s.sp + a) (s.sp + 1#32) (s.sp + b) s) :=
  finish_sizeOperand_valid hb _

theorem exec_ldma (a : Word) (hb : 0 ≤ b.toInt) (htop : ValidAddr s.sp) :
    exec (.ldma a b) s =
      finish (moveBlock 3#32 b.toNat (s.wordAt s.sp.toNat + a) s.sp (s.sp + b - 1#32) s) := by
  rw [exec, execLdma, finish_sizeOperand_valid hb, readWord_valid s _ htop, bind_ok, displaced]

theorem exec_ldma_no_top (a : Word) (hb : 0 ≤ b.toInt) (htop : ¬ ValidAddr s.sp) :
    exec (.ldma a b) s = .fault (.memoryRange .read s.sp) :=
  (finish_sizeOperand_valid hb _).trans (finish_readWord_invalid htop _)

end

/-- Settles O37: the size is checked first; then each is one block move, from its base and operand to above the top. -/
theorem localAndStackBlockLoads : Obligations.LocalAndStackBlockLoads := by
  refine fun a b => ⟨rfl, rfl, fun s => ⟨fun hneg => ?negative, fun hb => ⟨?ldml, ?ldms⟩⟩⟩
  case negative => exact ⟨finish_sizeOperand_negative hneg _, finish_sizeOperand_negative hneg _⟩
  case ldml => exact movesBlock_of_exec (exec_ldml a hb)
  case ldms => exact movesBlock_of_exec (exec_ldms a hb)

/-- Settles O38: the size is checked, the pointer is read, and then it is one block move to the top of the stack up. -/
theorem pointerBlockLoad : Obligations.PointerBlockLoad := by
  refine fun a b => ⟨rfl, fun s => ⟨fun hneg => ?negative, fun hb htop => ?moves, exec_ldma_no_top a⟩⟩
  case negative => exact finish_sizeOperand_negative hneg _
  case moves => exact movesBlock_of_exec (exec_ldma a hb htop)

end Sys2Proof.Machine

/-!
PROOFS. The stores (spec/45_store.md): the rule of a store of the top of the stack from the shared movement that performs
it, the store through a pointer, and the three block stores as block moves (R180 to R185).
-/

namespace Sys2Proof.Machine

/-- A rule that first writes a word that does not exist stops there. -/
theorem finish_writeWord_invalid {s : State} {a : Word} (h : ¬ ValidAddr a) (v : Word) (k : State → Result State) :
    finish (s.writeWord a v >>= k) = .fault (.memoryRange .write a) := by
  rw [writeWord_invalid s a v h, bind_error, finish_error]

-- Storing the top of the stack (R181, R185).

/-- An instruction made of a store of the top at the address `dst s` follows the rule of `dst`: the top is read before the
destination is written. -/
theorem popToRule_of_exec {i : Instr} {code a : Word} {dst : State → Word} (hcode : encode i = [code, a])
    (hexec : ∀ s, exec i s = finish (storeTop 2#32 (dst s) s)) : PopToRule i code a dst := by
  refine ⟨hcode, fun s => ?_⟩
  simp only [StopsAt, hexec]
  refine ⟨fun htop hdst => ?completes, fun htop => finish_readWord_invalid htop _, fun htop hdst => ?noDestination⟩
  case completes =>
    exact ⟨_, (finish_next_iff _ _).2 ((storeTop_ok_iff _ _ s _).2 ⟨htop, hdst, rfl⟩), rfl, rfl,
      wordAt_of_mem_insert rfl, frame_insert_sp_pc s _ _ _ _⟩
  case noDestination => rw [storeTop, readWord_valid s _ htop, bind_ok, finish_writeWord_invalid hdst]

theorem exec_stl (a : Word) (s : State) : exec (.stl a) s = finish (storeTop 2#32 (displaced s.mp a) s) := rfl

theorem exec_sts (a : Word) (s : State) : exec (.sts a) s = finish (storeTop 2#32 (displaced s.sp a) s) := rfl

/-- Settles O39: both are a store of the top, at the address that the operand makes with MP or with SP before the pop. -/
theorem localAndStackStores : Obligations.LocalAndStackStores := by
  refine fun a => ⟨popToRule_of_exec rfl fun s => ?stl, popToRule_of_exec rfl fun s => ?sts⟩
  case stl => rw [exec_stl, displaced_eq_wrap]
  case sts => rw [exec_sts, displaced_eq_wrap]

-- Storing through the pointer on top (R180).

section
variable {s : State}

theorem exec_sta {a : Word} (htop : ValidAddr s.sp) (hdeep : ValidAddr (s.sp - 1#32))
    (hptr : ValidAddr (displaced (s.wordAt s.sp.toNat) a)) :
    exec (.sta a) s = .next { s with
      mem := s.mem.insert (displaced (s.wordAt s.sp.toNat) a).toNat (s.wordAt (s.sp - 1#32).toNat)
      sp := s.sp - 2#32
      pc := s.pc + 2#32 } := by
  rw [exec, execSta, readWord_valid s _ htop, bind_ok, readWord_valid s _ hdeep, bind_ok, writeWord_valid s _ _ hptr,
    bind_ok, finish_ok, following_eq]

theorem exec_sta_no_top (a : Word) (htop : ¬ ValidAddr s.sp) :
    exec (.sta a) s = .fault (.memoryRange .read s.sp) := finish_readWord_invalid htop _

theorem exec_sta_no_deeper (a : Word) (htop : ValidAddr s.sp) (hdeep : ¬ ValidAddr (s.sp - 1#32)) :
    exec (.sta a) s = .fault (.memoryRange .read (s.sp - 1#32)) := by
  rw [exec, execSta, readWord_valid s _ htop, bind_ok, finish_readWord_invalid hdeep]

theorem exec_sta_no_target {a : Word} (htop : ValidAddr s.sp) (hdeep : ValidAddr (s.sp - 1#32))
    (hptr : ¬ ValidAddr (displaced (s.wordAt s.sp.toNat) a)) :
    exec (.sta a) s = .fault (.memoryRange .write (displaced (s.wordAt s.sp.toNat) a)) := by
  rw [exec, execSta, readWord_valid s _ htop, bind_ok, readWord_valid s _ hdeep, bind_ok,
    finish_writeWord_invalid hptr]

end

/-- Settles O40: the pointer and the value are both read before the one word is written. -/
theorem storeViaAddress : Obligations.StoreViaAddress := by
  refine fun a => ⟨rfl, fun s => ⟨fun htop hdeep hptr => ?completes, exec_sta_no_top a, exec_sta_no_deeper a,
    exec_sta_no_target⟩⟩
  case completes =>
    exact ⟨_, exec_sta htop hdeep hptr, rfl, rfl, wordAt_of_mem_insert rfl, frame_insert_sp_pc s _ _ _ _⟩

-- Storing a block (R182, R183, R184).

section
variable {b : Word} {s : State}

theorem exec_stml (a : Word) (hb : 0 ≤ b.toInt) :
    exec (.stml a b) s = finish (moveBlock 3#32 b.toNat (s.sp - b + 1#32) (s.mp + a) (s.sp - b) s) :=
  finish_sizeOperand_valid hb _

theorem exec_stms (a : Word) (hb : 0 ≤ b.toInt) :
    exec (.stms a b) s = finish (moveBlock 3#32 b.toNat (s.sp - b + 1#32) (s.sp + a) (s.sp - b) s) :=
  finish_sizeOperand_valid hb _

theorem exec_stma (a : Word) (hb : 0 ≤ b.toInt) (htop : ValidAddr s.sp) :
    exec (.stma a b) s =
      finish (moveBlock 3#32 b.toNat (s.sp - b) (s.wordAt s.sp.toNat + a) (s.sp - b - 1#32) s) := by
  rw [exec, execStma, finish_sizeOperand_valid hb, readWord_valid s _ htop, bind_ok, displaced]

theorem exec_stma_no_top (a : Word) (hb : 0 ≤ b.toInt) (htop : ¬ ValidAddr s.sp) :
    exec (.stma a b) s = .fault (.memoryRange .read s.sp) :=
  (finish_sizeOperand_valid hb _).trans (finish_readWord_invalid htop _)

end

/-- Settles O41: the size is checked first; then each is one block move, from the topmost words to its base and operand. -/
theorem localAndStackBlockStores : Obligations.LocalAndStackBlockStores := by
  refine fun a b => ⟨rfl, rfl, fun s => ⟨fun hneg => ?negative, fun hb => ⟨?stml, ?stms⟩⟩⟩
  case negative => exact ⟨finish_sizeOperand_negative hneg _, finish_sizeOperand_negative hneg _⟩
  case stml => exact movesBlock_of_exec (exec_stml a hb)
  case stms => exact movesBlock_of_exec (exec_stms a hb)

/-- Settles O42: the size is checked, the pointer is read, and then it is one block move of the words below the pointer. -/
theorem pointerBlockStore : Obligations.PointerBlockStore := by
  refine fun a b => ⟨rfl, fun s => ⟨fun hneg => ?negative, fun hb htop => ?moves, exec_stma_no_top a⟩⟩
  case negative => exact finish_sizeOperand_negative hneg _
  case moves => exact movesBlock_of_exec (exec_stma a hb htop)

end Sys2Proof.Machine

/-!
PROOFS. The register instructions (spec/46_register.md): what they read and write as a register, the frame of a register
write after the advance of PC, and the five rules (R190 to R197).
-/

namespace Sys2Proof.Machine

-- Reading and writing a register (R195, R196).

theorem readReg_eq_registerRead (s : State) (len : Word) (r : Reg) : readReg s len r = registerRead s len r := by
  cases r <;> rfl

theorem setReg_pc_of_ne (s : State) {r : Reg} (h : r ≠ .pc) (v : Word) : (s.setReg r v).pc = s.pc :=
  setReg_reg_other s r .pc v h.symm

theorem setReg_sp_of_ne (s : State) {r : Reg} (h : r ≠ .sp) (v : Word) : (s.setReg r v).sp = s.sp :=
  setReg_reg_other s r .sp v h.symm

theorem frame_advance {s t : State} {changed : List Reg} {stored : Nat → Prop} (h : Frame s t changed stored)
    (hpc : .pc ∈ changed) (len : Word) : Frame s (t.advance len) changed stored :=
  frame_setReg (r := .pc) h hpc (t.pc + len)

/-- A frame may list more registers than change. -/
theorem frame_mono {s t : State} {changed more : List Reg} {stored : Nat → Prop} (h : Frame s t changed stored)
    (hsub : changed ⊆ more) : Frame s t more stored := by
  obtain ⟨hregs, hrest⟩ := h
  exact ⟨fun q hq => hregs q fun hmem => hq (hsub hmem), hrest⟩

/-- A rule that reads two register operands faults where either is no register number (spec/10_state.md R13). -/
theorem finish_regOperand_either_outside {a b : Word} (h : 7 < a.toNat ∨ 7 < b.toNat)
    (k : Reg → Reg → Result State) :
    ∃ w, finish (regOperand a >>= fun r => regOperand b >>= k r) = .fault (.registerNumber w) := by
  by_cases ha : 7 < a.toNat
  · exact ⟨a, finish_regOperand_outside ha _⟩
  · exact ⟨b, finish_regOperand_second_outside (Nat.le_of_not_lt ha) (h.resolve_left ha) k⟩

-- `ldr` (R190).

theorem exec_ldr (r : Reg) (s : State) :
    exec (.ldr (registerNumber r)) s = finish (pushWord 2#32 (registerRead s 2#32 r) s) := by
  rw [exec, execLdr, regOperand_registerNumber, bind_ok, readReg_eq_registerRead]

/-- Settles O48: with a register number `ldr` is a push of the register as it was before the push. -/
theorem loadRegister : Obligations.LoadRegister := by
  refine ⟨fun _ => rfl, fun a s ha => exec_ldr_outside ha s, fun r => ?pushes⟩
  case pushes =>
    have hrule : PushRule (.ldr (registerNumber r)) 0x90#32 (registerNumber r) (fun s => registerRead s 2#32 r) :=
      pushRule_of_exec rfl (exec_ldr r)
    exact hrule.2

-- `ldrr` (R191).

theorem exec_ldrr (dst src : Reg) (s : State) :
    exec (.ldrr (registerNumber dst) (registerNumber src)) s =
      .next ((s.advance 3#32).setReg dst (registerRead s 3#32 src)) := by
  rw [exec, execLdrr, regOperand_registerNumber, bind_ok, regOperand_registerNumber, bind_ok, finish_ok,
    readReg_eq_registerRead]

/-- Settles O49: the advance of PC, then the write of the destination, which replaces it where the destination is PC. -/
theorem copyRegister : Obligations.CopyRegister := by
  refine ⟨fun _ _ => rfl, fun a b s h => finish_regOperand_either_outside h _, fun dst src s =>
    ⟨_, exec_ldrr dst src s, setReg_reg_same _ _ _, fun hne => setReg_pc_of_ne _ hne _, ?frame⟩⟩
  case frame => exact frame_setReg (frame_advance (frame_refl s _ _) (by simp) 3#32) (by simp) _

-- `str` (R192).

theorem exec_str (r : Reg) {s : State} (htop : ValidAddr s.sp) :
    exec (.str (registerNumber r)) s =
      .next ((s.popTo (s.pc + 2#32)).setReg r (s.wordAt s.sp.toNat)) := by
  rw [exec, execStr, regOperand_registerNumber, bind_ok, finish_next_iff]
  exact (popWord_ok_iff _ _ s _).2 ⟨htop, rfl⟩

theorem exec_str_no_top (r : Reg) {s : State} (htop : ¬ ValidAddr s.sp) :
    exec (.str (registerNumber r)) s = .fault (.memoryRange .read s.sp) := by
  rw [exec, execStr, regOperand_registerNumber, bind_ok, finish_popWord_no_top _ _ htop]

/-- Settles O50: the pop moves SP and PC, then the write of the register replaces either of them where it is the register
named. -/
theorem storeRegister : Obligations.StoreRegister := by
  refine ⟨fun _ => rfl, fun a s ha => exec_str_outside ha s, fun r s => ⟨fun htop => ?completes, exec_str_no_top r⟩⟩
  case completes =>
    refine ⟨_, exec_str r htop, setReg_reg_same _ _ _, fun hne => setReg_pc_of_ne _ hne _,
      fun hne => setReg_sp_of_ne _ hne _, ?frame⟩
    case frame =>
      have hpop : Frame s (s.popTo (s.pc + 2#32)) [.pc, .sp, r] NoWord := frame_mono (frame_popTo s _) (by simp)
      exact frame_setReg hpop (by simp) _

-- `swpr` (R193, R197).

section
variable {r : Reg} {s : State}

theorem exec_swpr (hsp : r ≠ .sp) (htop : ValidAddr s.sp) :
    exec (.swpr (registerNumber r)) s =
      .next ((({ s with mem := s.mem.insert s.sp.toNat (registerRead s 2#32 r) } : State).advance 2#32).setReg r
        (s.wordAt s.sp.toNat)) := by
  rw [exec, execSwpr, regOperand_registerNumber, bind_ok, if_neg hsp, readWord_valid s _ htop, bind_ok,
    writeWord_valid s _ _ htop, bind_ok, finish_ok, readReg_eq_registerRead]

theorem exec_swpr_no_top (hsp : r ≠ .sp) (htop : ¬ ValidAddr s.sp) :
    exec (.swpr (registerNumber r)) s = .fault (.memoryRange .read s.sp) := by
  rw [exec, execSwpr, regOperand_registerNumber, bind_ok, if_neg hsp, finish_readWord_invalid htop]

theorem exec_swpr_sp (s : State) : exec (.swpr (registerNumber .sp)) s = .fault (.unspecified .swprSP) := rfl

end

/-- Settles O51: both sides are read before either is written; the top is the only word written, and SP is not a register
that can be exchanged with it. -/
theorem swapRegister : Obligations.SwapRegister := by
  refine ⟨fun _ => rfl, fun a s ha => exec_swpr_outside ha s, fun r s => ⟨fun hsp htop => ?completes, exec_swpr_no_top,
    fun hsp => ?refused⟩⟩
  case completes =>
    refine ⟨_, exec_swpr hsp htop, setReg_reg_same _ _ _, ?top, fun hne => setReg_pc_of_ne _ hne _, ?frame⟩
    case top => exact wordAt_of_mem_insert (setReg_mem _ _ _)
    case frame => exact frame_setReg (frame_advance (frame_insert_word s _ _ _) (by simp) 2#32) (by simp) _
  case refused => exact hsp ▸ exec_swpr_sp s

-- `swprr` (R194).

theorem exec_swprr {ra rb : Reg} (hne : ra ≠ rb) (s : State) :
    exec (.swprr (registerNumber ra) (registerNumber rb)) s =
      .next (((s.advance 3#32).setReg ra (registerRead s 3#32 rb)).setReg rb (registerRead s 3#32 ra)) := by
  rw [exec, execSwprr, regOperand_registerNumber, bind_ok, regOperand_registerNumber, bind_ok, if_neg hne, finish_ok,
    readReg_eq_registerRead, readReg_eq_registerRead]

theorem exec_swprr_same (r : Reg) (s : State) :
    exec (.swprr (registerNumber r) (registerNumber r)) s = .next (s.advance 3#32) := by
  rw [exec, execSwprr, regOperand_registerNumber, bind_ok, bind_ok, if_pos rfl, finish_ok]

/-- Settles O52: both registers are read before either is written, so that of two different ones the second write leaves the
first in place; with the same register twice there is only the advance of PC. -/
theorem swapTwoRegisters : Obligations.SwapTwoRegisters := by
  refine ⟨fun _ _ => rfl, fun a b s h => finish_regOperand_either_outside h _, fun ra rb s =>
    ⟨fun hne => ?exchanged, fun heq => ?same⟩⟩
  case exchanged =>
    refine ⟨_, exec_swprr hne s, ?first, setReg_reg_same _ _ _, fun ha hb => ?pc, ?frame⟩
    case first => rw [setReg_reg_other _ _ _ _ hne, setReg_reg_same]
    case pc => rw [setReg_pc_of_ne _ hb, setReg_pc_of_ne _ ha, advance_pc]
    case frame =>
      have hfirst : Frame s ((s.advance 3#32).setReg ra (registerRead s 3#32 rb)) [.pc, ra, rb] NoWord :=
        frame_setReg (frame_advance (frame_refl s _ _) (by simp) 3#32) (by simp) _
      exact frame_setReg hfirst (by simp) _
  case same => exact heq ▸ exec_swprr_same ra s

end Sys2Proof.Machine

/-!
PROOFS. The environment call (spec/48_trap_annote.md): the service that the operand of `trap` selects, `trap 0` as a print
of the top of the stack (R210, R211), and the services of files, which the machine refuses (R216 to R220).
-/

namespace Sys2Proof.Machine

-- The service that an operand selects (R210).

theorem trapCode_zero : trapCode 0#32 = some .printInt := if_pos rfl

/-- A `trap` whose operand has a service runs that service. -/
theorem exec_trap_of_trapCode {a : Word} {svc : TrapService} (h : trapCode a = some svc) (s : State) :
    exec (.trap a) s = finish (serve svc s) := by
  have hsvc : serviceOperand a = .ok svc := by simp only [serviceOperand, h]
  rw [exec, execTrap, hsvc, bind_ok]

-- Printing the top of the stack (R211).

section
variable {s : State}

theorem finish_printWord (event : Word → OutputEvent) (htop : ValidAddr s.sp) :
    finish (printWord event s) = .next { s with
      sp := s.sp - 1#32
      pc := s.pc + 2#32
      output := s.output ++ [event (s.wordAt s.sp.toNat)] } :=
  (finish_next_iff _ _).2 ((printWord_ok_iff event s _).2 ⟨htop, rfl⟩)

theorem finish_printWord_no_top (event : Word → OutputEvent) (htop : ¬ ValidAddr s.sp) :
    finish (printWord event s) = .fault (.memoryRange .read s.sp) := finish_popWord_no_top _ _ htop

end

theorem exec_trap_zero (s : State) :
    exec (.trap 0#32) s = finish (printWord (fun v => .printInt v.toInt) s) :=
  exec_trap_of_trapCode trapCode_zero s

/-- Settles O54: operand 0 selects the print of the top of the stack, whose event is the signed reading of the word. -/
theorem trapZeroPrintsAnInteger : Obligations.TrapZeroPrintsAnInteger := by
  refine ⟨rfl, fun s => ⟨fun htop => ?prints, fun htop => ?noTop⟩⟩
  case prints => rw [exec_trap_zero, finish_printWord _ htop]
  case noTop => rw [StopsAt, exec_trap_zero, finish_printWord_no_top _ htop]

-- The services of files (R216 to R220, spec/60_exceptions.md R231).

/-- The machine does not implement service 8 (D36), so it refuses it even where the top of the stack is an open file. -/
theorem serve_readCharFromFile (s : State) :
    serve .readCharFromFile s = .error (.unspecified (.service .readCharFromFile)) :=
  readFromFile_refused Config.readsFiles s fun ⟨himplemented, _⟩ => absurd himplemented (by decide)

/-- Settles O58: the rule of each of four services is the refusal itself; that of service 8 is one in the machine's
configuration. -/
theorem fileServicesAreUnspecified : Obligations.FileServicesAreUnspecified := by
  intro s svc hsvc
  simp only [List.mem_cons, List.not_mem_nil, or_false] at hsvc
  obtain rfl | rfl | rfl | rfl | rfl := hsvc
  · rfl
  · rfl
  · exact serve_readCharFromFile s
  · rfl
  · rfl

end Sys2Proof.Machine

/-!
PROOFS. Decoding and encoding are inverse (spec/30_encoding.md R70 to R77): what the rows of the opcode map say of the
encoder, and from it both directions.
-/

namespace Sys2Proof.Machine

/-- The instruction that a format makes of its operand words is encoded as `code` followed by those words, and is no meta
instruction. -/
inductive ShapeEncodes (code : Word) : Shape → Prop where
  | f0 {i : Instr} : encode i = [code] → i.isMeta = false → ShapeEncodes code (.f0 i)
  | f1 {make : Word → Instr} :
    (∀ a, encode (make a) = [code, a]) → (∀ a, (make a).isMeta = false) → ShapeEncodes code (.f1 make)
  | f2 {make : Word → Word → Instr} :
    (∀ a b, encode (make a b) = [code, a, b]) → (∀ a b, (make a b).isMeta = false) → ShapeEncodes code (.f2 make)

/-- Every row of the opcode map agrees with the encoder: for each, its format selects the constructor and the encoder's
arm of that instruction is the rest. -/
theorem opcodeTable_encodes : ∀ row ∈ opcodeTable, ShapeEncodes row.code row.shape := by
  simp only [opcodeTable, opcodeRows0, opcodeRows1, opcodeRows2, opcodeRows3, List.cons_append, List.nil_append,
    List.forall_mem_cons, List.not_mem_nil, false_imp_iff, implies_true, and_true]
  and_intros
  all_goals constructor
  all_goals intros; rfl

/-- The row that an opcode word selects has that word as its code and agrees with the encoder. -/
theorem lookupOpcode_some {op : Word} {row : Row} (h : lookupOpcode op = some row) :
    row.code = op ∧ ShapeEncodes row.code row.shape :=
  ⟨of_decide_eq_true (List.find?_some (p := fun r : Row => decide (r.code = op)) h),
    opcodeTable_encodes row (List.mem_of_find?_eq_some h)⟩

theorem encode_of_decode {ws rest : List Word} {i : Instr} (h : decode ws = .ok (i, rest)) :
    ws = encode i ++ rest ∧ i.isMeta = false := by
  obtain ⟨op, row, hrow, hcases⟩ := decode_ok_cases h
  obtain ⟨rfl, hencodes⟩ := lookupOpcode_some hrow
  obtain ⟨hshape, rfl⟩ | ⟨make, a, hshape, rfl, rfl⟩ | ⟨make, a, b, hshape, rfl, rfl⟩ := hcases
  · rw [hshape] at hencodes
    cases hencodes with
    | f0 hwords hmeta => exact ⟨by rw [hwords]; rfl, hmeta⟩
  · rw [hshape] at hencodes
    cases hencodes with
    | f1 hwords hmeta => exact ⟨by rw [hwords]; rfl, hmeta a⟩
  · rw [hshape] at hencodes
    cases hencodes with
    | f2 hwords hmeta => exact ⟨by rw [hwords]; rfl, hmeta a b⟩

/-- The decoder undoes the encoder, instruction by instruction: each code selects its own row. -/
theorem decode_encode {i : Instr} (hmeta : i.isMeta = false) (rest : List Word) :
    decode (encode i ++ rest) = .ok (i, rest) := by
  cases i
  case annote => exact Bool.noConfusion hmeta
  all_goals rfl

/-- Settles O5: a decoded instruction comes from the row of its opcode word, which agrees with the encoder; the other way
round each code selects its own row. -/
theorem decodeAndEncodeAgree : Obligations.DecodeAndEncodeAgree := by
  refine fun ws rest i => ⟨encode_of_decode, ?encoded⟩
  case encoded =>
    rintro ⟨rfl, hmeta⟩
    exact decode_encode hmeta rest

end Sys2Proof.Machine

/-!
PROOFS. What every instruction that completes does and leaves (spec/00_scope.md R3, R5, section 5.3): the effect of each
shared movement, from them one record of facts for all 55 instructions, and the statements about the whole machine that
are read off it (spec/10_state.md R14 to R26, spec/20_memory.md R40, R46).
-/

namespace Sys2Proof.Machine

-- Effects: a frame that keeps the canonical form of the memory (spec/20_memory.md R40).

/-- A frame whose writes keep the memory canonical. -/
structure Effect (s t : State) (changed : List Reg) (stored : Nat → Prop) : Prop where
  frame : Frame s t changed stored
  canonical : s.mem.wf → t.mem.wf

theorem Effect.refl (s : State) (changed : List Reg) (stored : Nat → Prop) : Effect s s changed stored :=
  ⟨frame_refl s changed stored, id⟩

section
variable {s t : State} {changed : List Reg} {stored : Nat → Prop}

theorem Effect.setReg (h : Effect s t changed stored) {r : Reg} (hr : r ∈ changed) (v : Word) :
    Effect s (t.setReg r v) changed stored := by
  obtain ⟨hframe, hwf⟩ := h
  exact ⟨frame_setReg hframe hr v, by rwa [setReg_mem]⟩

theorem Effect.insert (h : Effect s t changed stored) {a : Word} (hstored : stored a.toNat) (ha : ValidAddr a)
    (v : Word) : Effect s { t with mem := t.mem.insert a.toNat v } changed stored := by
  obtain ⟨hframe, hwf⟩ := h
  exact ⟨frame_insert hframe hstored v, fun hs => insert_wf t.mem a.toNat v (hwf hs) ha⟩

/-- A write of no words needs no address. -/
theorem insertMany_wf_of_validBlock {m : Memory} (h : m.wf) {a : Word} {vs : List Word}
    (ha : ValidBlock a vs.length) : (m.insertMany a.toNat vs).wf := by
  rcases ha with hnone | hfits
  · rw [List.length_eq_zero_iff.1 hnone]
    exact h
  · exact insertMany_wf vs m a.toNat h hfits

theorem Effect.insertMany (h : Effect s t changed stored) {dst : Word} {vs : List Word}
    (hstored : ∀ c, BlockOf dst vs.length c → stored c) (hdst : ValidBlock dst vs.length) :
    Effect s { t with mem := t.mem.insertMany dst.toNat vs } changed stored := by
  obtain ⟨hframe, hwf⟩ := h
  exact ⟨frame_insertMany hframe hstored, fun hs => insertMany_wf_of_validBlock (hwf hs) hdst⟩

end

section
variable {s : State} {a : Word}

theorem Effect.one_word_pc (ha : ValidAddr a) (v pc' : Word) :
    Effect s { s with mem := s.mem.insert a.toNat v, pc := pc' } [.pc] (OneWord a) :=
  ⟨frame_insert_pc s a v pc', fun h => insert_wf s.mem a.toNat v h ha⟩

/-- The effect of a rule that writes one word, SP and PC, as most do. -/
theorem Effect.one_word_sp_pc (ha : ValidAddr a) (v sp' pc' : Word) :
    Effect s { s with mem := s.mem.insert a.toNat v, sp := sp', pc := pc' } [.pc, .sp] (OneWord a) :=
  ⟨frame_insert_sp_pc s a v sp' pc', fun h => insert_wf s.mem a.toNat v h ha⟩

end

theorem Effect.popTo (s : State) (dst : Word) : Effect s (s.popTo dst) [.pc, .sp] NoWord :=
  ⟨frame_popTo s dst, id⟩

-- The rule of an instruction that neither stops the machine nor speaks to the environment.

/-- The effect of a rule, with PC at the address `len` words on unless the rule gives it another value (R5). -/
structure Rule (s t : State) (len : Word) (jumps : Prop) (changed : List Reg) (stored : Nat → Prop) : Prop where
  effect : Effect s t changed stored
  pc : ¬ jumps → t.pc = s.pc + len

section
variable {s t : State} {len : Word} {jumps : Prop}

theorem Rule.of_binaryOp {f : Word → Word → Result Word} (h : finish (binaryOp f s) = .next t) :
    Rule s t 1#32 jumps [.pc, .sp] (OneWord (s.sp - 1#32)) := by
  obtain ⟨_, hdeep, r, _, rfl⟩ := (binaryOp_ok_iff f s t).1 ((finish_next_iff _ t).1 h)
  exact ⟨Effect.one_word_sp_pc hdeep r _ _, fun _ => rfl⟩

theorem Rule.of_replaceTop {f : Word → Result Word} (h : finish (replaceTop len f s) = .next t) :
    Rule s t len jumps [.pc] (OneWord s.sp) := by
  obtain ⟨htop, r, _, rfl⟩ := (replaceTop_ok_iff len f s t).1 ((finish_next_iff _ t).1 h)
  exact ⟨Effect.one_word_pc htop r _, fun _ => rfl⟩

theorem Rule.of_pushWord {v : Word} (h : finish (pushWord len v s) = .next t) :
    Rule s t len jumps [.pc, .sp] (OneWord (s.sp + 1#32)) := by
  obtain ⟨hfree, rfl⟩ := (pushWord_ok_iff len v s t).1 ((finish_next_iff _ t).1 h)
  exact ⟨Effect.one_word_sp_pc hfree v _ _, fun _ => rfl⟩

theorem Rule.of_pushFrom {src : Word} (h : finish (pushFrom len src s) = .next t) :
    Rule s t len jumps [.pc, .sp] (OneWord (s.sp + 1#32)) := by
  obtain ⟨_, hfree, rfl⟩ := (pushFrom_ok_iff len src s t).1 ((finish_next_iff _ t).1 h)
  exact ⟨Effect.one_word_sp_pc hfree _ _ _, fun _ => rfl⟩

theorem Rule.of_storeTop {dst : Word} (h : finish (storeTop len dst s) = .next t) :
    Rule s t len jumps [.pc, .sp] (OneWord dst) := by
  obtain ⟨_, hdst, rfl⟩ := (storeTop_ok_iff len dst s t).1 ((finish_next_iff _ t).1 h)
  exact ⟨Effect.one_word_sp_pc hdst _ _ _, fun _ => rfl⟩

theorem Rule.of_moveBlock {n : Nat} {src dst sp' : Word} (h : finish (moveBlock len n src dst sp' s) = .next t) :
    Rule s t len jumps [.pc, .sp] (BlockOf dst n) := by
  obtain ⟨_, hdst, rfl⟩ := (moveBlock_ok_iff len n src dst sp' s t).1 ((finish_next_iff _ t).1 h)
  have hblock : Effect s { s with mem := s.mem.insertMany dst.toNat (blockWords s src n) } [.pc, .sp] (BlockOf dst n) :=
    (Effect.refl s _ _).insertMany (by simp) (by simpa using hdst)
  exact ⟨(hblock.setReg (r := .sp) (by decide) sp').setReg (r := .pc) (by decide) _, fun _ => rfl⟩

theorem Rule.of_popWord_popTo {use : Word → State → State} {dst : Word} (h : finish (popWord len use s) = .next t)
    (huse : use (s.wordAt s.sp.toNat) (s.popTo (s.pc + len)) = s.popTo dst) (hjumps : jumps) :
    Rule s t len jumps [.pc, .sp] NoWord := by
  obtain ⟨_, rfl⟩ := (popWord_ok_iff len use s t).1 ((finish_next_iff _ t).1 h)
  exact ⟨huse ▸ Effect.popTo s dst, fun hnot => absurd hjumps hnot⟩

end

-- One part of a sequence at a time: what it needs, and the rest of the sequence.

section
variable {s t : State} {a : Word}

theorem finish_readWord_next {k : Word → Result State} (h : finish (s.readWord a >>= k) = .next t) :
    ValidAddr a ∧ finish (k (s.wordAt a.toNat)) = .next t := by
  by_cases ha : ValidAddr a
  · exact ⟨ha, by rwa [readWord_valid s a ha, bind_ok] at h⟩
  · simp [finish_readWord_invalid ha] at h

theorem finish_writeWord_next {v : Word} {k : State → Result State} (h : finish (s.writeWord a v >>= k) = .next t) :
    ValidAddr a ∧ finish (k { s with mem := s.mem.insert a.toNat v }) = .next t := by
  by_cases ha : ValidAddr a
  · exact ⟨ha, by rwa [writeWord_valid s a v ha, bind_ok] at h⟩
  · simp [finish_writeWord_invalid ha] at h

theorem finish_writeWords_next {vs : List Word} {k : State → Result State}
    (h : finish (s.writeWords a vs >>= k) = .next t) :
    ValidBlock a vs.length ∧ finish (k { s with mem := s.mem.insertMany a.toNat vs }) = .next t := by
  by_cases ha : ValidBlock a vs.length
  · exact ⟨ha, by rwa [writeWords_valid vs s a ha, bind_ok] at h⟩
  · obtain ⟨x, _, hx⟩ := writeWords_invalid vs s a ha
    simp [hx] at h

theorem finish_readWords_next {n : Nat} {k : List Word → Result State}
    (h : finish (s.readWords n a >>= k) = .next t) :
    ValidBlock a n ∧ finish (k (blockWords s a n)) = .next t := by
  by_cases ha : ValidBlock a n
  · exact ⟨ha, by rwa [readWords_valid s n a ha, bind_ok] at h⟩
  · obtain ⟨x, _, hx⟩ := readWords_invalid s n a ha
    simp [hx] at h

theorem finish_sizeOperand_next {k : Nat → Result State} (h : finish (sizeOperand a >>= k) = .next t) :
    0 ≤ a.toInt ∧ finish (k a.toNat) = .next t := by
  by_cases ha : 0 ≤ a.toInt
  · exact ⟨ha, by rwa [finish_sizeOperand_valid ha] at h⟩
  · simp [finish_sizeOperand_negative (Int.lt_of_not_ge ha)] at h

theorem finish_regOperand_next {k : Reg → Result State} (h : finish (regOperand a >>= k) = .next t) :
    ∃ r, a = registerNumber r ∧ finish (k r) = .next t := by
  by_cases ha : 7 < a.toNat
  · simp [finish_regOperand_outside ha] at h
  · obtain ⟨r, rfl⟩ := (toNat_le_seven_iff a).1 (Nat.le_of_not_lt ha)
    exact ⟨r, rfl, by rwa [regOperand_registerNumber, bind_ok] at h⟩

theorem finish_ok_next {u : State} (h : finish (.ok u) = .next t) : u = t := Host.Outcome.next.inj h

end

-- The rules that no shared movement performs.

section
variable {s t : State} {a b : Word}

theorem bsr_next (h : exec (.bsr a) s = .next t) :
    ValidAddr (s.sp + 1#32) ∧ t = { s with
      mem := s.mem.insert (s.sp + 1#32).toNat (s.pc + 2#32), sp := s.sp + 1#32, pc := branchTarget s a } := by
  by_cases hfree : ValidAddr (s.sp + 1#32)
  · rw [exec_bsr a hfree] at h
    exact ⟨hfree, (Host.Outcome.next.inj h).symm⟩
  · simp [exec_bsr_no_free a hfree] at h

theorem rule_bsr (h : exec (.bsr a) s = .next t) : Rule s t 2#32 True [.pc, .sp] (OneWord (s.sp + 1#32)) := by
  obtain ⟨hfree, rfl⟩ := bsr_next h
  exact ⟨Effect.one_word_sp_pc hfree _ _ _, fun hnot => absurd trivial hnot⟩

theorem jsr_next (h : exec .jsr s = .next t) :
    ValidAddr s.sp ∧ t = { s with mem := s.mem.insert s.sp.toNat (s.pc + 1#32), pc := s.wordAt s.sp.toNat } := by
  obtain ⟨htop, h⟩ := finish_readWord_next h
  obtain ⟨_, h⟩ := finish_writeWord_next h
  exact ⟨htop, (finish_ok_next h).symm⟩

theorem rule_jsr (h : exec .jsr s = .next t) : Rule s t 1#32 True [.pc] (OneWord s.sp) := by
  obtain ⟨htop, rfl⟩ := jsr_next h
  exact ⟨Effect.one_word_pc htop _ _, fun hnot => absurd trivial hnot⟩

theorem rule_link (h : exec (.link a) s = .next t) :
    Rule s t 2#32 False [.pc, .sp, .mp] (OneWord (s.sp + 1#32)) := by
  obtain ⟨hfree, h⟩ := finish_writeWord_next h
  obtain rfl := finish_ok_next h
  exact ⟨⟨frame_mp_sp_pc (frame_insert_word s _ _ _) _ _ _, fun hs => insert_wf _ _ _ hs hfree⟩, fun _ => rfl⟩

theorem rule_unlink (h : exec .unlink s = .next t) : Rule s t 1#32 False [.pc, .sp, .mp] NoWord := by
  obtain ⟨_, h⟩ := finish_readWord_next h
  obtain rfl := finish_ok_next h
  exact ⟨⟨frame_mp_sp_pc (frame_refl s _ _) _ _ _, id⟩, fun _ => rfl⟩

theorem rule_swp (h : exec .swp s = .next t) :
    Rule s t 1#32 False [.pc] (BothOf (OneWord s.sp) (OneWord (s.sp - 1#32))) := by
  obtain ⟨htop, h⟩ := finish_readWord_next h
  obtain ⟨hdeep, h⟩ := finish_readWord_next h
  obtain ⟨_, h⟩ := finish_writeWord_next h
  obtain ⟨_, h⟩ := finish_writeWord_next h
  obtain rfl := finish_ok_next h
  exact ⟨⟨frame_insert_insert_pc s _ _ _ _ _, fun hs => insert_wf _ _ _ (insert_wf _ _ _ hs htop) hdeep⟩, fun _ => rfl⟩

theorem rule_sta (h : exec (.sta a) s = .next t) :
    Rule s t 2#32 False [.pc, .sp] (OneWord (displaced (s.wordAt s.sp.toNat) a)) := by
  obtain ⟨_, h⟩ := finish_readWord_next h
  obtain ⟨_, h⟩ := finish_readWord_next h
  obtain ⟨hptr, h⟩ := finish_writeWord_next h
  obtain rfl := finish_ok_next h
  exact ⟨Effect.one_word_sp_pc hptr _ _ _, fun _ => rfl⟩

/-- The two words of `sth` may be one, where HP addresses the top of the stack. -/
theorem Effect.sth {s : State} (htop : ValidAddr s.sp) (hheap : ValidAddr s.hp) (v w hp' pc' : Word) :
    Effect s { s with mem := (s.mem.insert s.hp.toNat v).insert s.sp.toNat w, hp := hp', pc := pc' } [.pc, .hp]
      (BothOf (OneWord s.hp) (OneWord s.sp)) := by
  have hfirst := (Effect.refl s [.pc, .hp] (BothOf (OneWord s.hp) (OneWord s.sp))).insert (Or.inl rfl) hheap v
  have hboth := hfirst.insert (Or.inr rfl) htop w
  exact (hboth.setReg (r := .hp) (by decide) hp').setReg (r := .pc) (by decide) pc'

theorem rule_sth (h : exec .sth s = .next t) :
    Rule s t 1#32 False [.pc, .hp] (BothOf (OneWord s.hp) (OneWord s.sp)) := by
  obtain ⟨htop, h⟩ := finish_readWord_next h
  obtain ⟨hheap, h⟩ := finish_writeWord_next h
  obtain ⟨_, h⟩ := finish_writeWord_next h
  obtain rfl := finish_ok_next h
  exact ⟨Effect.sth htop hheap _ _ _ _, fun _ => rfl⟩

theorem Effect.stmh {s : State} {dst a : Word} {n : Nat} {vs : List Word} (hn : vs.length = n)
    (hdst : ValidBlock dst n) (ha : ValidAddr a) (w hp' sp' pc' : Word) :
    Effect s { s with mem := (s.mem.insertMany dst.toNat vs).insert a.toNat w, hp := hp', sp := sp', pc := pc' }
      [.pc, .sp, .hp] (BothOf (BlockOf dst n) (OneWord a)) := by
  subst hn
  have hblock := (Effect.refl s [.pc, .sp, .hp] (BothOf (BlockOf dst vs.length) (OneWord a))).insertMany
    (fun _ hc => Or.inl hc) hdst
  have hboth := hblock.insert (Or.inr rfl) ha w
  exact ((hboth.setReg (r := .hp) (by decide) hp').setReg (r := .sp) (by decide) sp').setReg (r := .pc) (by decide) pc'

theorem stmh_next (h : exec (.stmh a) s = .next t) :
    0 ≤ a.toInt ∧ ValidBlock (s.sp - a + 1#32) a.toNat ∧ ValidBlock s.hp a.toNat ∧ ValidAddr (s.sp - a + 1#32) ∧
      t = { s with
        mem := (s.mem.insertMany s.hp.toNat (blockWords s (s.sp - a + 1#32) a.toNat)).insert (s.sp - a + 1#32).toNat
          (s.hp + a - 1#32)
        hp := s.hp + a
        sp := s.sp - a + 1#32
        pc := s.pc + 2#32 } := by
  obtain ⟨ha, h⟩ := finish_sizeOperand_next h
  obtain ⟨hsrc, h⟩ := finish_readWords_next h
  obtain ⟨hdst, h⟩ := finish_writeWords_next h
  obtain ⟨hptr, h⟩ := finish_writeWord_next h
  exact ⟨ha, hsrc, by rwa [blockWords_length] at hdst, hptr, (finish_ok_next h).symm⟩

theorem rule_stmh (h : exec (.stmh a) s = .next t) :
    Rule s t 2#32 False [.pc, .sp, .hp] (BothOf (BlockOf s.hp a.toNat) (OneWord (s.sp - a + 1#32))) := by
  obtain ⟨_, _, hdst, hptr, rfl⟩ := stmh_next h
  exact ⟨Effect.stmh (blockWords_length s _ _) hdst hptr _ _ _ _, fun _ => rfl⟩

end

-- The register instructions, whose destination may be PC (spec/46_register.md R196).

theorem namedRegister_registerNumber (r : Reg) : namedRegister (registerNumber r) = [r] := by
  cases r <;> rfl

theorem ne_pc_of_registerNumber_ne_zero {r : Reg} (h : registerNumber r ≠ 0#32) : r ≠ .pc :=
  fun e => h (e ▸ rfl)

theorem Effect.advance {s t : State} {changed : List Reg} {stored : Nat → Prop} (h : Effect s t changed stored)
    (hpc : .pc ∈ changed) (len : Word) : Effect s (t.advance len) changed stored :=
  h.setReg (r := .pc) hpc (t.pc + len)

section
variable {s t : State} {a b : Word}

theorem rule_ldr (h : exec (.ldr a) s = .next t) : Rule s t 2#32 False [.pc, .sp] (OneWord (s.sp + 1#32)) := by
  obtain ⟨r, rfl, hrest⟩ := finish_regOperand_next h
  exact Rule.of_pushWord hrest

theorem rule_ldrr (h : exec (.ldrr a b) s = .next t) : Rule s t 3#32 (a = 0#32) (.pc :: namedRegister a) NoWord := by
  obtain ⟨dst, rfl, hrest⟩ := finish_regOperand_next h
  obtain ⟨src, rfl, hlast⟩ := finish_regOperand_next hrest
  obtain rfl := finish_ok_next hlast
  rw [namedRegister_registerNumber]
  exact ⟨((Effect.refl s _ _).advance (by simp) 3#32).setReg (by simp) _,
    fun hne => setReg_pc_of_ne _ (ne_pc_of_registerNumber_ne_zero hne) _⟩

theorem rule_str (h : exec (.str a) s = .next t) : Rule s t 2#32 (a = 0#32) (.pc :: .sp :: namedRegister a) NoWord := by
  obtain ⟨r, rfl, hrest⟩ := finish_regOperand_next h
  obtain ⟨_, rfl⟩ := (popWord_ok_iff _ _ s t).1 ((finish_next_iff _ t).1 hrest)
  rw [namedRegister_registerNumber]
  have hpop : Effect s (s.popTo (s.pc + 2#32)) [.pc, .sp, r] NoWord := ⟨frame_mono (frame_popTo s _) (by simp), id⟩
  exact ⟨hpop.setReg (by simp) _, fun hne => setReg_pc_of_ne _ (ne_pc_of_registerNumber_ne_zero hne) _⟩

theorem rule_swpr (h : exec (.swpr a) s = .next t) :
    Rule s t 2#32 (a = 0#32) (.pc :: namedRegister a) (OneWord s.sp) := by
  obtain ⟨r, rfl, hrest⟩ := finish_regOperand_next h
  by_cases hsp : r = .sp
  · simp [hsp, raise] at hrest
  · rw [if_neg hsp] at hrest
    obtain ⟨_, hrest⟩ := finish_readWord_next hrest
    obtain ⟨htop, hrest⟩ := finish_writeWord_next hrest
    obtain rfl := finish_ok_next hrest
    rw [namedRegister_registerNumber]
    have htopWritten := (Effect.refl s [.pc, r] (OneWord s.sp)).insert rfl htop (readReg s 2#32 r)
    exact ⟨(htopWritten.advance (by simp) 2#32).setReg (r := r) (by simp) (s.wordAt s.sp.toNat),
      fun hne => setReg_pc_of_ne _ (ne_pc_of_registerNumber_ne_zero hne) _⟩

theorem rule_swprr (h : exec (.swprr a b) s = .next t) :
    Rule s t 3#32 (a = 0#32 ∨ b = 0#32) (.pc :: (namedRegister a ++ namedRegister b)) NoWord := by
  obtain ⟨ra, rfl, hrest⟩ := finish_regOperand_next h
  obtain ⟨rb, rfl, hlast⟩ := finish_regOperand_next hrest
  have hadvance : Effect s (s.advance 3#32) (.pc :: ([ra] ++ [rb])) NoWord :=
    (Effect.refl s _ _).advance (by simp) 3#32
  rw [namedRegister_registerNumber, namedRegister_registerNumber]
  by_cases heq : ra = rb
  · rw [if_pos heq] at hlast
    obtain rfl := finish_ok_next hlast
    exact ⟨hadvance, fun _ => rfl⟩
  · rw [if_neg heq] at hlast
    obtain rfl := finish_ok_next hlast
    refine ⟨(hadvance.setReg (r := ra) (by simp) _).setReg (r := rb) (by simp) _, fun hne => ?pc⟩
    case pc =>
      obtain ⟨ha, hb⟩ := not_or.1 hne
      rw [setReg_pc_of_ne _ (ne_pc_of_registerNumber_ne_zero hb), setReg_pc_of_ne _ (ne_pc_of_registerNumber_ne_zero ha),
        advance_pc]

end

-- All instructions.

/-- Every instruction but `halt` and `trap`: by the shared movement or the lemma of its rule. -/
theorem rule_of_exec {i : Instr} {s t : State} (h : exec i s = .next t) (hhalt : i ≠ .halt)
    (htrap : ∀ a, i ≠ .trap a) :
    Rule s t (BitVec.ofNat 32 (encode i).length) (setsPc i) (registersWritten i) (addressesWritten i s) := by
  cases i
  case halt => exact absurd rfl hhalt
  case trap a => exact absurd rfl (htrap a)
  case add | and | div | mod | mul | or | sub | xor | eq | ne | lt | gt | le | ge => exact Rule.of_binaryOp h
  case neg | not | lda | ldaa | ldh => exact Rule.of_replaceTop h
  case ldc | ldla | ldsa => exact Rule.of_pushWord h
  case ldl | lds => exact Rule.of_pushFrom h
  case stl | sts => exact Rule.of_storeTop h
  case ldml | ldms | stml | stms =>
    obtain ⟨_, h⟩ := finish_sizeOperand_next h
    exact Rule.of_moveBlock h
  case ldma | ldmh | stma =>
    obtain ⟨_, h⟩ := finish_sizeOperand_next h
    obtain ⟨_, h⟩ := finish_readWord_next h
    exact Rule.of_moveBlock h
  case ajs =>
    obtain rfl := finish_ok_next h
    have hadvance : Effect s (s.advance 2#32) [.pc, .sp] NoWord := (Effect.refl s _ _).advance (by decide) 2#32
    exact ⟨hadvance.setReg (r := .sp) (by decide) _, fun _ => rfl⟩
  case bra =>
    obtain rfl := finish_ok_next h
    exact ⟨(Effect.refl s [.pc] NoWord).setReg (r := .pc) (by decide) _, fun hnot => absurd trivial hnot⟩
  case nop =>
    obtain rfl := finish_ok_next h
    exact ⟨(Effect.refl s _ _).advance (by decide) 1#32, fun _ => rfl⟩
  case annote =>
    obtain rfl := finish_ok_next h
    exact ⟨Effect.refl s _ _, fun _ => (BitVec.add_zero _).symm⟩
  case brf =>
    exact Rule.of_popWord_popTo h ((ite_countsAsTrue _ _ _).trans (apply_ite s.popTo _ _ _).symm) trivial
  case brt =>
    exact Rule.of_popWord_popTo h ((ite_countsAsTrue _ _ _).trans (apply_ite s.popTo _ _ _).symm) trivial
  case ret => exact Rule.of_popWord_popTo h rfl trivial
  case bsr => exact rule_bsr h
  case jsr => exact rule_jsr h
  case link => exact rule_link h
  case unlink => exact rule_unlink h
  case swp => exact rule_swp h
  case sta => exact rule_sta h
  case sth => exact rule_sth h
  case stmh => exact rule_stmh h
  case ldr => exact rule_ldr h
  case ldrr => exact rule_ldrr h
  case str => exact rule_str h
  case swpr => exact rule_swpr h
  case swprr => exact rule_swprr h

/-- Everything the statements about the whole machine say of an instruction `i` that takes `s` to `t`. -/
structure Completed (i : Instr) (s t : State) : Prop where
  registers : SameRegistersBut s t (registersWritten i)
  memory : SameMemoryBut s t (addressesWritten i s)
  canonical : s.mem.wf → t.mem.wf
  pc : i ≠ .halt → ¬ setsPc i → t.pc = s.pc + BitVec.ofNat 32 (encode i).length
  status : t.status = if i = .halt then .halted else s.status
  output : ∃ es, t.output = s.output ++ es
  openFiles : t.openFiles = s.openFiles
  inputsDrawn : s.inputsDrawn ≤ t.inputsDrawn ∧ t.inputsDrawn ≤ s.inputsDrawn + 1
  quiet : (∀ a, i ≠ .trap a) → t.output = s.output ∧ t.openFiles = s.openFiles ∧ t.inputsDrawn = s.inputsDrawn

theorem completed_of_rule {i : Instr} {s t : State} (hhalt : i ≠ .halt)
    (h : Rule s t (BitVec.ofNat 32 (encode i).length) (setsPc i) (registersWritten i) (addressesWritten i s)) :
    Completed i s t := by
  obtain ⟨⟨⟨hregs, hmem, hstatus, houtput, hfiles, hdrawn⟩, hwf⟩, hpc⟩ := h
  exact {
    registers := hregs
    memory := hmem
    canonical := hwf
    pc := fun _ => hpc
    status := by rw [if_neg hhalt, hstatus]
    output := ⟨[], by rw [houtput, List.append_nil]⟩
    openFiles := hfiles
    inputsDrawn := by omega
    quiet := fun _ => ⟨houtput, hfiles, hdrawn⟩ }

theorem completed_halt (s : State) : Completed .halt s { s.advance 1#32 with status := .halted } where
  registers := fun r hr => advance_reg s 1#32 r (List.ne_of_not_mem_cons hr)
  memory := fun _ _ => rfl
  canonical := id
  pc := fun hne => absurd rfl hne
  status := rfl
  output := ⟨[], (List.append_nil _).symm⟩
  openFiles := rfl
  inputsDrawn := ⟨Nat.le_refl _, Nat.le_succ _⟩
  quiet := fun _ => ⟨rfl, rfl, rfl⟩

-- `trap`: the services that complete (spec/48_trap_annote.md R211 to R214).

theorem addressesWritten_trap {a : Word} {svc : TrapService} (h : trapCode a = some svc) (s : State) :
    addressesWritten (.trap a) s = servicesWritten svc s := by
  simp only [addressesWritten, h]

/-- What a service does to the machine is an effect on the words that it names; to the environment it may add output and
draw one input. -/
theorem completed_trap {a : Word} {svc : TrapService} (hsvc : trapCode a = some svc) {s u : State}
    (h : Effect s u [.pc, .sp] (servicesWritten svc s)) (hpc : u.pc = s.pc + 2#32) {out : List OutputEvent}
    (hout : ∃ es, out = s.output ++ es) {drawn : Nat} (hdrawn : s.inputsDrawn ≤ drawn ∧ drawn ≤ s.inputsDrawn + 1) :
    Completed (.trap a) s { u with output := out, inputsDrawn := drawn } := by
  obtain ⟨⟨hregs, hmem, hstatus, _, hfiles, _⟩, hwf⟩ := h
  exact {
    registers := hregs
    memory := by rwa [addressesWritten_trap hsvc]
    canonical := hwf
    pc := fun _ _ => hpc
    status := hstatus
    output := hout
    openFiles := hfiles
    inputsDrawn := hdrawn
    quiet := fun hne => absurd rfl (hne a) }

section
variable {a : Word} {svc : TrapService} {s t : State}

theorem completed_printWord (hsvc : trapCode a = some svc) (hwords : servicesWritten svc s = NoWord)
    {event : Word → OutputEvent} (h : printWord event s = .ok t) : Completed (.trap a) s t := by
  obtain ⟨_, rfl⟩ := (printWord_ok_iff event s t).1 h
  exact completed_trap hsvc (hwords ▸ Effect.popTo s (s.pc + 2#32)) rfl ⟨_, rfl⟩ ⟨Nat.le_refl _, Nat.le_succ _⟩

theorem completed_pushInput (hsvc : trapCode a = some svc) (hwords : servicesWritten svc s = OneWord (s.sp + 1#32))
    {answer : Nat → Word} (h : pushInput answer s = .ok t) : Completed (.trap a) s t := by
  obtain ⟨hfree, rfl⟩ := (pushInput_ok_iff answer s t).1 h
  exact completed_trap hsvc (hwords ▸ Effect.one_word_sp_pc hfree (answer s.inputsDrawn) (s.sp + 1#32) (s.pc + 2#32)) rfl
    ⟨[], (List.append_nil _).symm⟩ ⟨Nat.le_succ _, Nat.le_refl _⟩

/-- The machine refuses service 5 in every state (D36). -/
theorem serve_readCharSequence (s : State) :
    serve .readCharSequence s = .error (.unspecified (.service .readCharSequence)) := rfl

theorem completed_serve (hsvc : trapCode a = some svc) (h : serve svc s = .ok t) : Completed (.trap a) s t := by
  cases svc
  case printInt | printChar => exact completed_printWord hsvc rfl h
  case readInt | readChar => exact completed_pushInput hsvc rfl h
  case readCharSequence => simp [serve_readCharSequence] at h
  case readCharFromFile => simp [serve_readCharFromFile] at h
  case openForReading | openForWriting | writeCharToFile | closeFile => simp [serve, raise] at h

/-- An operand without a service faults (R221). -/
theorem exec_trap_of_no_trapCode (h : trapCode a = none) (s : State) : exec (.trap a) s = .fault (.trapCode a) := by
  have hsvc : serviceOperand a = .error (.trapCode a) := by simp only [serviceOperand, h, raise]
  rw [exec, execTrap, hsvc, bind_error, finish_error]

end

/-- Every instruction that completes. -/
theorem completed_of_exec {i : Instr} {s t : State} (h : exec i s = .next t) : Completed i s t := by
  by_cases hhalt : i = .halt
  · obtain rfl := hhalt
    obtain rfl := Host.Outcome.next.inj h
    exact completed_halt s
  by_cases htrap : ∃ a, i = .trap a
  · obtain ⟨a, rfl⟩ := htrap
    cases hsvc : trapCode a with
    | none => simp [exec_trap_of_no_trapCode hsvc] at h
    | some svc =>
      rw [exec_trap_of_trapCode hsvc] at h
      exact completed_serve hsvc ((finish_next_iff _ t).1 h)
  exact completed_of_rule hhalt (rule_of_exec h hhalt (not_exists.1 htrap))

-- The statements about the whole machine.

/-- Settles O15: the record's `quiet`, which only `trap` is without. -/
theorem onlyTrapTouchesTheEnvironment : Obligations.OnlyTrapTouchesTheEnvironment :=
  fun _ _ _ h => (completed_of_exec h).quiet

/-- Settles O16: a frame keeps the status, `trap` too, and `halt` sets it. -/
theorem onlyHaltChangesTheStatus : Obligations.OnlyHaltChangesTheStatus :=
  fun _ _ _ h => (completed_of_exec h).status

/-- Settles O17: the two halves of the frame in the record; the services that the machine refuses do not complete. -/
theorem onlyNamedRegistersAndWordsChange : Obligations.OnlyNamedRegistersAndWordsChange :=
  fun _ _ _ h => ⟨(completed_of_exec h).registers, (completed_of_exec h).memory⟩

/-- Settles O19: each shared movement and each rule of its own that sets no PC advances it by the instruction's length. -/
theorem pcAdvancesByTheLength : Obligations.PcAdvancesByTheLength :=
  fun _ _ _ h => (completed_of_exec h).pc

/-- Settles O13: a halted machine stays as it is, a fault leaves the memory, and an instruction that completes keeps the
form. -/
theorem stepKeepsTheMemoryCanonical : Obligations.StepKeepsTheMemoryCanonical := by
  intro s t hwf hstep
  obtain ⟨_, rfl⟩ | ⟨_, i, _, hexec⟩ | ⟨_, f, rfl⟩ := step_next_cases s t hstep
  · exact hwf
  · exact (completed_of_exec hexec).canonical hwf
  · exact hwf

/-- Settles O14: a halted machine and a fault leave the environment; what an instruction does to it is its record's. -/
theorem stepKeepsTheOutputHistory : Obligations.StepKeepsTheOutputHistory := by
  intro s t hstep
  obtain ⟨_, rfl⟩ | ⟨_, i, _, hexec⟩ | ⟨_, f, rfl⟩ := step_next_cases s t hstep
  · exact ⟨⟨[], (List.append_nil _).symm⟩, rfl, Nat.le_refl _, Nat.le_succ _⟩
  · have hdone := completed_of_exec hexec
    exact ⟨hdone.output, hdone.openFiles, hdone.inputsDrawn⟩
  · exact ⟨⟨[], (List.append_nil _).symm⟩, rfl, Nat.le_refl _, Nat.le_succ _⟩

/-- Settles O10: an instruction that completes leaves a running machine running or halted, so the step was a fault. -/
theorem faultsLeaveThePreState : Obligations.FaultsLeaveThePreState := by
  intro s t f hrun hstep hfaulted
  obtain ⟨hhalted, rfl⟩ | ⟨_, i, _, hexec⟩ | ⟨_, g, rfl⟩ := step_next_cases s t hstep
  · simp [hhalted] at hfaulted
  · rw [(completed_of_exec hexec).status, hrun] at hfaulted
    split at hfaulted <;> simp at hfaulted
  · obtain rfl := RunStatus.faulted.inj hfaulted
    rfl

-- Which rules name MP, HP, RR and the scratch registers (O18).

/-- The registers other than PC and SP that an instruction's rule names, read off `registersWritten`: MP and HP by
name, any of them through a register operand. -/
theorem mem_registersWritten {i : Instr} {r : Reg} (hr : r ∈ registersWritten i) (hpc : r ≠ .pc) (hsp : r ≠ .sp) :
    (r = .mp ∧ ((∃ a, i = .link a) ∨ i = .unlink)) ∨ (r = .hp ∧ (i = .sth ∨ ∃ a, i = .stmh a)) ∨
    i = .str (registerNumber r) ∨ i = .swpr (registerNumber r) ∨ (∃ b, i = .ldrr (registerNumber r) b) ∨
    (∃ b, i = .swprr (registerNumber r) b) ∨ (∃ a, i = .swprr a (registerNumber r)) := by
  have hnamed : ∀ w, r ∈ namedRegister w → w = registerNumber r := fun w hw =>
    (regOfNumber_some_iff w r).1 (Option.mem_toList.1 hw)
  cases i
  case link | unlink | sth | stmh => simp_all [registersWritten]
  case str a | swpr a | ldrr a b =>
    obtain rfl := hnamed a (by simpa [registersWritten, hpc, hsp] using hr)
    simp
  case swprr a b =>
    obtain ha | hb : r ∈ namedRegister a ∨ r ∈ namedRegister b := by simpa [registersWritten, hpc] using hr
    · obtain rfl := hnamed a ha
      simp
    · obtain rfl := hnamed b hb
      simp
  all_goals simp_all [registersWritten]

/-- Settles O18: a register that changes is one that the rule names. -/
theorem implicitRegisterWrites : Obligations.ImplicitRegisterWrites := by
  intro i s t r hexec hpc hsp hchanged
  have hr : r ∈ registersWritten i := by
    by_contra hnot
    exact hchanged ((completed_of_exec hexec).registers r hnot)
  exact mem_registersWritten hr hpc hsp

end Sys2Proof.Machine

/-!
PROOFS. The step that runs no instruction: a fetch that stops at a word outside memory or at a word that nothing has
written, a stopped machine, and the values after reset (spec/10_state.md R25, R30 to R36; spec/30_encoding.md R77;
spec/70_reset_and_hazards.md R261).
-/

namespace Sys2Proof.Machine

-- A fetch that stops: at the opcode word, at the first operand, at the second.

section
variable {s : State} {e : Stop}

theorem fetchInstr_of_opcode_stop (h : s.fetchWord s.pc = .error e) : s.fetchInstr = .error e := by
  simp only [State.fetchInstr, h, bind, Except.bind]

theorem fetchInstr_of_first_operand_stop {op : Word} {row : Row} (hcode : CodeAt s [op])
    (hrow : lookupOpcode op = some row) (hoperands : 1 ≤ row.shape.inlineOperands)
    (h : s.fetchWord (s.pc + 1#32) = .error e) : s.fetchInstr = .error e := by
  have hop : s.fetchWord s.pc = .ok op := fetchWord_pc_of_codeAt hcode
  cases hshape : row.shape with
  | f0 i => simp [hshape, Shape.inlineOperands] at hoperands
  | f1 make => simp only [State.fetchInstr, hop, hrow, hshape, h, bind, Except.bind]
  | f2 make => simp only [State.fetchInstr, hop, hrow, hshape, h, bind, Except.bind]

theorem fetchInstr_of_second_operand_stop {op a : Word} {row : Row} (hcode : CodeAt s [op, a])
    (hrow : lookupOpcode op = some row) (hoperands : row.shape.inlineOperands = 2)
    (h : s.fetchWord (s.pc + 2#32) = .error e) : s.fetchInstr = .error e := by
  have hop : s.fetchWord s.pc = .ok op := fetchWord_pc_of_codeAt hcode
  have ha : s.fetchWord (s.pc + 1#32) = .ok a := fetchWord_of_codeAt hcode (k := 1) rfl
  cases hshape : row.shape with
  | f0 i => simp [hshape, Shape.inlineOperands] at hoperands
  | f1 make => simp [hshape, Shape.inlineOperands] at hoperands
  | f2 make => simp only [State.fetchInstr, hop, hrow, hshape, ha, h, bind, Except.bind]

theorem step_of_fetch_refused {r : Refusal} (hs : s.status = .running) (hf : s.fetchInstr = .error (.refused r)) :
    step s = .refused r := by
  simp only [step, hs, hf]

end

/-- Settles O11: the fetch stops at the first of its words that does not exist, and the step settles that fault. -/
theorem fetchOutsideMemoryFaults : Obligations.FetchOutsideMemoryFaults := by
  intro s hrun
  refine ⟨fun hpc => ?opcode, fun op row hcode hrow hoperands ha => ?first,
    fun op a row hcode hrow hoperands hb => ?second⟩
  case opcode => exact step_of_fetch_fault s _ hrun (fetchInstr_of_opcode_stop (fetchWord_outside s _ hpc))
  case first =>
    exact step_of_fetch_fault s _ hrun
      (fetchInstr_of_first_operand_stop hcode hrow hoperands (fetchWord_outside s _ ha))
  case second =>
    exact step_of_fetch_fault s _ hrun
      (fetchInstr_of_second_operand_stop hcode hrow hoperands (fetchWord_outside s _ hb))

/-- Settles O12: the fetch stops at the first of its words that nothing has written, and the step refuses. -/
theorem fetchOfAnUnwrittenWordIsRefused : Obligations.FetchOfAnUnwrittenWordIsRefused := by
  intro s hrun
  refine ⟨fun hpc hnone => ?opcode, fun op row hcode hrow hoperands ha hnone => ?first,
    fun op a row hcode hrow hoperands hb hnone => ?second⟩
  case opcode => exact step_of_fetch_refused hrun (fetchInstr_of_opcode_stop (fetchWord_unwritten s _ hpc hnone))
  case first =>
    exact step_of_fetch_refused hrun
      (fetchInstr_of_first_operand_stop hcode hrow hoperands (fetchWord_unwritten s _ ha hnone))
  case second =>
    exact step_of_fetch_refused hrun
      (fetchInstr_of_second_operand_stop hcode hrow hoperands (fetchWord_unwritten s _ hb hnone))

-- A stopped machine (R25).

/-- Settles O9: the step looks at the status before it fetches. -/
theorem stoppedMachineStaysStopped : Obligations.StoppedMachineStaysStopped := by
  refine fun s => ⟨fun hhalted => ?halted, fun f hfaulted => ?faulted⟩
  case halted => simp only [step, hhalted, haltedOutcome]
  case faulted => simp only [step, hfaulted, faultedOutcome]

-- Reset and the worked encodings.

/-- Settles O2: each register of `State.reset` is the value of its constant, and the two constraints hold of them. -/
theorem resetRegistersAreTheNamedValues : Obligations.ResetRegistersAreTheNamedValues :=
  ⟨rfl, rfl, rfl, rfl, rfl, rfl, rfl, by decide, by decide, rfl⟩

/-- Settles O3: there are no cells. -/
theorem resetMemoryIsCanonical : Obligations.ResetMemoryIsCanonical :=
  ⟨List.Pairwise.nil, fun _ hc => absurd hc List.not_mem_nil⟩

/-- Settles O4: each word list is the encoding of its instruction, which the decoder undoes; the two negative operands are
the words of their two's complement. -/
theorem workedEncodingsDecode : Obligations.WorkedEncodingsDecode := by
  have hminusTwo : wrap (-2) = 0xFFFFFFFE#32 := by decide
  have hminusTen : wrap (-10) = 0xFFFFFFF6#32 := by decide
  rw [Obligations.WorkedEncodingsDecode, hminusTwo, hminusTen]
  exact ⟨decode_encode (i := .add) rfl [], decode_encode (i := .ldc 1#32) rfl [],
    decode_encode (i := .ajs 0xFFFFFFFE#32) rfl [], decode_encode (i := .ldrr 1#32 2#32) rfl [],
    decode_encode (i := .swprr 2#32 7#32) rfl [], decode_encode (i := .ldmh 0#32 3#32) rfl [],
    decode_encode (i := .bsr 0xFFFFFFF6#32) rfl [], decode_encode (i := .trap 0#32) rfl []⟩

end Sys2Proof.Machine

/-!
PROOFS. What a second instruction undoes of a first: `ret` after `bsr` and `jsr` (spec/42_control.md R133, R135, R137) and
`unlink` after `link` (spec/43_stack.md R151, R153).
-/

namespace Sys2Proof.Machine

/-- A push leaves SP one up, so that a pop brings it back. -/
theorem sp_push_pop (sp : Word) : sp + 1#32 - 1#32 = sp := BitVec.add_sub_cancel sp 1#32

section
variable {s t : State}

theorem exec_ret_of_top {v : Word} (htop : ValidAddr t.sp) (hv : t.wordAt t.sp.toNat = v) :
    exec .ret t = .next (t.popTo v) := by
  rw [exec_ret htop, hv]

theorem ret_undoes_bsr {a : Word} (h : exec (.bsr a) s = .next t) :
    exec .ret t = .next { s with mem := s.mem.insert (s.sp + 1#32).toNat (s.pc + 2#32), pc := s.pc + 2#32 } := by
  obtain ⟨hfree, rfl⟩ := bsr_next h
  rw [exec_ret_of_top hfree (wordAt_of_mem_insert (s := s) rfl), State.popTo, sp_push_pop]

theorem ret_undoes_jsr (h : exec .jsr s = .next t) :
    exec .ret t = .next { s with
      mem := s.mem.insert s.sp.toNat (s.pc + 1#32), sp := s.sp - 1#32, pc := s.pc + 1#32 } := by
  obtain ⟨htop, rfl⟩ := jsr_next h
  exact exec_ret_of_top htop (wordAt_of_mem_insert (s := s) rfl)

theorem unlink_undoes_link {a : Word} (h : exec (.link a) s = .next t) :
    exec .unlink t = .next { s with
      mem := s.mem.insert (s.sp + 1#32).toNat s.mp, pc := s.pc + 2#32 + 1#32 } := by
  obtain ⟨hfree, h⟩ := finish_writeWord_next h
  obtain rfl := finish_ok_next h
  rw [exec_unlink hfree, wordAt_of_mem_insert (s := s) rfl, sp_push_pop]
  rfl

end

/-- Settles O29: the word that `ret` pops is the return address that the call has just written there. -/
theorem returnUndoesTheCall : Obligations.ReturnUndoesTheCall := by
  refine ⟨fun a s t h => ?bsr, fun s t h => ?jsr⟩
  case bsr => exact ⟨_, ret_undoes_bsr h, rfl, frame_insert_pc s _ _ _⟩
  case jsr => exact ⟨_, ret_undoes_jsr h, rfl, rfl, frame_insert_sp_pc s _ _ _ _⟩

/-- Settles O33: the word that MP addresses after `link` is the old MP, and it lies one above the old SP. -/
theorem unlinkUndoesLink : Obligations.UnlinkUndoesLink :=
  fun _ s _ h => ⟨_, unlink_undoes_link h, frame_insert_pc s _ _ _⟩

end Sys2Proof.Machine

/-!
PROOFS. The multi-word instructions with size 1 (corner cases of spec/44_load.md R165 to R167, spec/45_store.md R182 to
R184, spec/47_heap.md R201, R203): a block move of one word is one read and one write, which is what the single forms do.
-/

namespace Sys2Proof.Machine

-- One word read and one written.

/-- The movement that the single forms share: one word from `src` to `dst`, SP to `sp'`. -/
def copyWord (len src dst sp' : Word) (s : State) : Result State := do
  let v ← s.readWord src
  let t ← s.writeWord dst v
  .ok { t with sp := sp', pc := s.pc + len }

/-- What follows a write of one word may be replaced where it agrees on the states that the write can answer. -/
theorem writeWord_bind_congr {s : State} {a v : Word} {f g : State → Result State}
    (h : ∀ m, f { s with mem := m } = g { s with mem := m }) : (s.writeWord a v >>= f) = (s.writeWord a v >>= g) := by
  by_cases ha : ValidAddr a
  · rw [writeWord_valid s a v ha, bind_ok, bind_ok, h]
  · rw [writeWord_invalid s a v ha, bind_error, bind_error]

section
variable (s : State)

theorem pushFrom_eq_copyWord (len src : Word) :
    pushFrom len src s = copyWord len src (s.sp + 1#32) (s.sp + 1#32) s := rfl

theorem storeTop_eq_copyWord (len dst : Word) : storeTop len dst s = copyWord len s.sp dst (s.sp - 1#32) s := rfl

/-- A dereference copies the word that the pointer on top points to over the pointer. -/
theorem replaceTop_eq_copyWord (len : Word) (src : Word → Word) :
    replaceTop len (fun p => s.readWord (src p)) s = s.readWord s.sp >>= fun p => copyWord len (src p) s.sp s.sp s :=
  bind_congr fun _ => bind_congr fun _ => writeWord_bind_congr fun _ => rfl

theorem exec_sta_eq_copyWord (a : Word) :
    exec (.sta a) s =
      finish (s.readWord s.sp >>= fun p => copyWord 2#32 (s.sp - 1#32) (displaced p a) (s.sp - 2#32) s) := rfl

-- One word longer.

/-- A result whose instruction is one word longer. -/
def pcOneFurther (r : Result State) : Result State := r >>= fun t => .ok { t with pc := t.pc + 1#32 }

theorem oneWordLonger_finish (r : Result State) : oneWordLonger (finish r) = finish (pcOneFurther r) := by
  cases r <;> rfl

theorem pcOneFurther_bind {α : Type} (x : Result α) (f : α → Result State) :
    pcOneFurther (x >>= f) = x >>= fun a => pcOneFurther (f a) := bind_assoc x f _

theorem writeWords_one (a v : Word) : s.writeWords a [v] = s.writeWord a v := by
  rw [State.writeWords]
  cases s.writeWord a v <;> rfl

/-- A block of one word is read, and then written, as a word is; the instruction has one word more. -/
theorem moveBlock_one (src dst sp' : Word) :
    moveBlock 3#32 1 src dst sp' s = pcOneFurther (copyWord 2#32 src dst sp' s) := by
  have hpc : s.pc + 3#32 = s.pc + 2#32 + 1#32 := (BitVec.add_assoc s.pc 2#32 1#32).symm
  have hread : s.readWords 1 src = s.readWord src >>= fun v => .ok [v] := rfl
  simp only [moveBlock, hread, copyWord, pcOneFurther, bind_assoc, bind_ok, writeWords_one, following_eq, hpc]

end

section
variable {i j : Instr} {s : State} {sp' : Word}

theorem oneWordLonger_of_copy {src dst : Word} (hlong : exec i s = finish (moveBlock 3#32 1 src dst sp' s))
    (hshort : exec j s = finish (copyWord 2#32 src dst sp' s)) : exec i s = oneWordLonger (exec j s) := by
  rw [hlong, hshort, oneWordLonger_finish, moveBlock_one]

/-- The forms that take the pointer on top of the stack, which both read first. -/
theorem oneWordLonger_of_copy_via_pointer {src dst : Word → Word}
    (hlong : exec i s = finish (s.readWord s.sp >>= fun p => moveBlock 3#32 1 (src p) (dst p) sp' s))
    (hshort : exec j s = finish (s.readWord s.sp >>= fun p => copyWord 2#32 (src p) (dst p) sp' s)) :
    exec i s = oneWordLonger (exec j s) := by
  rw [hlong, hshort, oneWordLonger_finish, pcOneFurther_bind]
  simp only [moveBlock_one]

end

-- The eight pairs.

theorem sub_one_add_one (a : Word) : a - 1#32 + 1#32 = a := BitVec.sub_add_cancel a 1#32

theorem sub_one_sub_one (a : Word) : a - 1#32 - 1#32 = a - 2#32 := by
  bv_omega

theorem finish_sizeOperand_one (k : Nat → Result State) : finish (sizeOperand 1#32 >>= k) = finish (k 1) := rfl

section
variable (a : Word) (s : State)

theorem exec_ldma_one : exec (.ldma a 1#32) s = oneWordLonger (exec (.lda a) s) := by
  refine oneWordLonger_of_copy_via_pointer ?long (congrArg finish (replaceTop_eq_copyWord s 2#32 _))
  case long => rw [exec, execLdma, finish_sizeOperand_one, sp_push_pop]

theorem exec_ldmh_one : exec (.ldmh a 1#32) s = oneWordLonger (exec (.ldh a) s) := by
  refine oneWordLonger_of_copy_via_pointer ?long (congrArg finish (replaceTop_eq_copyWord s 2#32 _))
  case long => simp only [exec, execLdmh, finish_sizeOperand_one, sp_push_pop, sub_one_add_one]

theorem exec_stma_one : exec (.stma a 1#32) s = oneWordLonger (exec (.sta a) s) := by
  refine oneWordLonger_of_copy_via_pointer ?long (exec_sta_eq_copyWord s a)
  case long => rw [exec, execStma, finish_sizeOperand_one, sub_one_sub_one]

theorem exec_ldml_one : exec (.ldml a 1#32) s = oneWordLonger (exec (.ldl a) s) :=
  oneWordLonger_of_copy (exec_ldml a (by decide)) (congrArg finish (pushFrom_eq_copyWord s 2#32 _))

theorem exec_ldms_one : exec (.ldms a 1#32) s = oneWordLonger (exec (.lds a) s) :=
  oneWordLonger_of_copy (exec_ldms a (by decide)) (congrArg finish (pushFrom_eq_copyWord s 2#32 _))

theorem exec_stml_one : exec (.stml a 1#32) s = oneWordLonger (exec (.stl a) s) := by
  refine oneWordLonger_of_copy (exec_stml a (by decide)) ?short
  case short =>
    rw [sub_one_add_one]
    exact congrArg finish (storeTop_eq_copyWord s 2#32 _)

theorem exec_stms_one : exec (.stms a 1#32) s = oneWordLonger (exec (.sts a) s) := by
  refine oneWordLonger_of_copy (exec_stms a (by decide)) ?short
  case short =>
    rw [sub_one_add_one]
    exact congrArg finish (storeTop_eq_copyWord s 2#32 _)

/-- Both write the heap word and then the top; that the top is read as a block, and that SP is written with its own value,
is the whole difference. -/
theorem exec_stmh_one : exec (.stmh 1#32) s = oneWordLonger (exec .sth s) := by
  have hread : s.readWords 1 s.sp = s.readWord s.sp >>= fun v => .ok [v] := rfl
  have hpc : s.pc + 2#32 = s.pc + 1#32 + 1#32 := (BitVec.add_assoc s.pc 1#32 1#32).symm
  rw [exec, exec, execStmh, execSth, finish_sizeOperand_one, oneWordLonger_finish]
  simp only [sub_one_add_one, sp_push_pop, hread, hpc, following_eq, pcOneFurther_bind, bind_assoc, bind_ok,
    writeWords_one]
  exact congrArg finish (bind_congr fun v => writeWord_bind_congr fun m => writeWord_bind_congr fun m' => rfl)

end

/-- Settles O43: seven pairs are one copy of a word, and `stmh 1` and `sth` are the same two writes. -/
theorem sizeOneIsTheSingleForm : Obligations.SizeOneIsTheSingleForm :=
  fun a s => ⟨exec_ldma_one a s, exec_ldml_one a s, exec_ldms_one a s, exec_ldmh_one a s, exec_stma_one a s,
    exec_stml_one a s, exec_stms_one a s, exec_stmh_one s⟩

end Sys2Proof.Machine

/-!
PROOFS. The heap (spec/47_heap.md): the two word instructions, the two block instructions, and the round trip of a block
through the heap (R200 to R204).
-/

namespace Sys2Proof.Machine

-- `sth` (R202).

section
variable {s : State}

theorem exec_sth (htop : ValidAddr s.sp) (hheap : ValidAddr s.hp) :
    exec .sth s = .next { s with
      mem := (s.mem.insert s.hp.toNat (s.wordAt s.sp.toNat)).insert s.sp.toNat s.hp
      hp := s.hp + 1#32
      pc := s.pc + 1#32 } := by
  rw [exec, execSth, readWord_valid s _ htop, bind_ok, writeWord_valid s _ _ hheap, bind_ok, writeWord_valid _ _ _ htop,
    bind_ok, finish_ok, following_eq]

theorem exec_sth_no_top (htop : ¬ ValidAddr s.sp) : exec .sth s = .fault (.memoryRange .read s.sp) :=
  finish_readWord_invalid htop _

theorem exec_sth_no_heap (htop : ValidAddr s.sp) (hheap : ¬ ValidAddr s.hp) :
    exec .sth s = .fault (.memoryRange .write s.hp) := by
  rw [exec, execSth, readWord_valid s _ htop, bind_ok, finish_writeWord_invalid hheap]

end

/-- Settles O44: `ldh` is a dereference; `sth` writes the heap word and then the top, so that the address wins where they are
one word. -/
theorem heapWordStoreAndLoad : Obligations.HeapWordStoreAndLoad := by
  refine ⟨fun a => dereferenceRule_of_exec rfl fun _ => rfl, rfl, fun s => ⟨fun htop hheap => ?completes, exec_sth_no_top,
    exec_sth_no_heap⟩⟩
  case completes =>
    refine ⟨_, exec_sth htop hheap, rfl, rfl, ?top, fun hne => ?heap, (Effect.sth htop hheap _ _ _ _).frame⟩
    case top => exact wordAt_of_mem_insert (s := { s with mem := s.mem.insert s.hp.toNat _ }) rfl
    case heap =>
      exact wordAt_of_mem_insert_insert (s := s) rfl fun haddr => hne (BitVec.eq_of_toNat_eq haddr)

-- `stmh` (R203).

section
variable {s : State} {a : Word}

/-- What is left of `stmh` where the words that it takes from the stack exist. -/
theorem exec_stmh_of_source (ha : 0 ≤ a.toInt) (hsrc : ValidBlock (s.sp - a + 1#32) a.toNat) :
    exec (.stmh a) s = finish (do
      let t ← s.writeWords s.hp (blockWords s (s.sp - a + 1#32) a.toNat)
      let t ← t.writeWord (s.sp - a + 1#32) (s.hp + a - 1#32)
      .ok { t with hp := s.hp + a, sp := s.sp - a + 1#32, pc := s.pc + 2#32 }) := by
  rw [exec, execStmh, finish_sizeOperand_valid ha, readWords_valid s _ _ hsrc, bind_ok, blockWords, following_eq]

theorem exec_stmh (ha : 0 ≤ a.toInt) (hsrc : ValidBlock (s.sp - a + 1#32) a.toNat) (hdst : ValidBlock s.hp a.toNat)
    (hptr : ValidAddr (s.sp - a + 1#32)) :
    exec (.stmh a) s = .next { s with
      mem := (s.mem.insertMany s.hp.toNat (blockWords s (s.sp - a + 1#32) a.toNat)).insert (s.sp - a + 1#32).toNat
        (s.hp + a - 1#32)
      hp := s.hp + a
      sp := s.sp - a + 1#32
      pc := s.pc + 2#32 } := by
  rw [exec_stmh_of_source ha hsrc, writeWords_valid _ s _ (by rwa [blockWords_length]), bind_ok,
    writeWord_valid _ _ _ hptr, bind_ok, finish_ok]

theorem exec_stmh_no_source (ha : 0 ≤ a.toInt) (hsrc : ¬ ValidBlock (s.sp - a + 1#32) a.toNat) :
    ∃ x, ¬ ValidAddr x ∧ exec (.stmh a) s = .fault (.memoryRange .read x) := by
  obtain ⟨x, hx, hread⟩ := readWords_invalid s _ _ hsrc
  exact ⟨x, hx, by rw [exec, execStmh, finish_sizeOperand_valid ha, hread, bind_error, finish_error]⟩

/-- The block is written before the address of its last word. -/
theorem exec_stmh_no_destination (ha : 0 ≤ a.toInt) (hsrc : ValidBlock (s.sp - a + 1#32) a.toNat)
    (h : ¬ ValidBlock s.hp a.toNat ∨ ¬ ValidAddr (s.sp - a + 1#32)) :
    ∃ x, ¬ ValidAddr x ∧ exec (.stmh a) s = .fault (.memoryRange .write x) := by
  rw [exec_stmh_of_source ha hsrc]
  by_cases hdst : ValidBlock s.hp a.toNat
  · have hptr : ¬ ValidAddr (s.sp - a + 1#32) := h.resolve_left (not_not_intro hdst)
    refine ⟨_, hptr, ?_⟩
    rw [writeWords_valid _ s _ (by rwa [blockWords_length]), bind_ok, finish_writeWord_invalid hptr]
  · obtain ⟨x, hx, hwrite⟩ := writeWords_invalid (blockWords s (s.sp - a + 1#32) a.toNat) s s.hp
      (by rwa [blockWords_length])
    exact ⟨x, hx, by rw [hwrite, bind_error, finish_error]⟩

end

/-- A word of a block that was written, where a later write of one word went elsewhere. -/
theorem wordAt_of_mem_insertMany_insert {s t : State} {dst : Word} {vs : List Word} {c : Nat} {w : Word}
    (h : t.mem = (s.mem.insertMany dst.toNat vs).insert c w) {k : Nat} (hk : k < vs.length) (hne : dst.toNat + k ≠ c) :
    t.wordAt (dst.toNat + k) = vs.getD k 0 := by
  have hblock : State.wordAt { s with mem := s.mem.insertMany dst.toNat vs } (dst.toNat + k) = vs.getD k 0 :=
    wordAt_of_mem_insertMany (s := s) rfl hk
  rw [State.wordAt, h, lookup_insert, if_neg hne]
  exact hblock

/-- Settles O45: the size, the words, the block and the address of its last word, in this order; the last write wins where
it falls into the block. -/
theorem heapBlockStore : Obligations.HeapBlockStore := by
  refine fun a => ⟨rfl, fun s => ⟨fun hneg => ?negative, fun ha hsrc hdst hptr => ?completes, exec_stmh_no_source,
    exec_stmh_no_destination⟩⟩
  case negative => exact finish_sizeOperand_negative hneg _
  case completes =>
    refine ⟨_, exec_stmh ha hsrc hdst hptr, rfl, rfl, rfl, ?address, fun k hk hne => ?word,
      (Effect.stmh (blockWords_length s _ _) hdst hptr _ _ _ _).frame⟩
    case address => exact wordAt_of_mem_insert (s := { s with mem := s.mem.insertMany s.hp.toNat _ }) rfl
    case word =>
      rw [wordAt_of_mem_insertMany_insert (s := s) rfl (by rwa [blockWords_length]) hne, blockWords_getD s _ _ k hk]

-- `ldmh` (R201).

theorem exec_ldmh (a : Word) {b : Word} {s : State} (hb : 0 ≤ b.toInt) (htop : ValidAddr s.sp) :
    exec (.ldmh a b) s =
      finish (moveBlock 3#32 b.toNat (s.wordAt s.sp.toNat + a - b + 1#32) s.sp (s.sp + b - 1#32) s) := by
  rw [exec, execLdmh, finish_sizeOperand_valid hb, readWord_valid s _ htop, bind_ok, displaced]

theorem exec_ldmh_no_top (a : Word) {b : Word} {s : State} (hb : 0 ≤ b.toInt) (htop : ¬ ValidAddr s.sp) :
    exec (.ldmh a b) s = .fault (.memoryRange .read s.sp) :=
  (finish_sizeOperand_valid hb _).trans (finish_readWord_invalid htop _)

/-- Settles O46: the size is checked, the pointer is read, and then it is one block move that ends at the pointer. -/
theorem heapBlockLoad : Obligations.HeapBlockLoad := by
  refine fun a b => ⟨rfl, fun s => ⟨fun hneg => ?negative, fun hb htop => ?moves, exec_ldmh_no_top a⟩⟩
  case negative => exact finish_sizeOperand_negative hneg _
  case moves => exact movesBlock_of_exec (exec_ldmh a hb htop)

-- A block through the heap and back (R201, R203).

theorem exec_next_unique {i : Instr} {s t u : State} (ht : exec i s = .next t) (hu : exec i s = .next u) : u = t :=
  Host.Outcome.next.inj (hu.symm.trans ht)

/-- The block that ends at the last word of a block at `hp` is that block. -/
theorem block_ending_at_last (hp n : Word) : hp + n - 1#32 + 0#32 - n + 1#32 = hp := by
  bv_omega

theorem last_of_block (sp n : Word) : sp - n + 1#32 + n - 1#32 = sp := by
  bv_omega

/-- Where the stack words exist, SP is the address of the last of them. -/
theorem toNat_last_of_block {sp n : Word} (hn : 1 ≤ n.toNat) (h : ValidBlock (sp - n + 1#32) n.toNat) :
    sp.toNat + 1 = (sp - n + 1#32).toNat + n.toNat := by
  have hfits : (sp - n + 1#32).toNat + n.toNat ≤ 2000 := h.resolve_left (by omega)
  bv_omega

/-- Two blocks of `n` words that lie apart share no address. -/
theorem blocks_apart {hp base : Word} {n : Nat} (h : base.toNat + n ≤ hp.toNat ∨ hp.toNat + n ≤ base.toNat) {k j : Nat}
    (hk : k < n) (hj : j < n) : hp.toNat + k ≠ base.toNat + j := by
  omega

/-- What a move of a block back to `base` leaves of the memory, where an earlier instruction had copied the block from
`base` to `hp` and may have changed `base` itself. -/
theorem memory_of_copy_and_move_back {s t u : State} {hp base : Word} {n : Nat} (hn : 1 ≤ n)
    (hapart : base.toNat + n ≤ hp.toNat ∨ hp.toNat + n ≤ base.toNat)
    (hcopied : ∀ k, k < n → hp.toNat + k ≠ base.toNat → t.wordAt (hp.toNat + k) = s.wordAt (base.toNat + k))
    (hst : SameMemoryBut s t (BothOf (BlockOf hp n) (OneWord base)))
    (hback : ∀ k, k < n → u.wordAt (base.toNat + k) = t.wordAt (hp.toNat + k))
    (htu : SameMemoryBut t u (BlockOf base n)) :
    SameMemoryBut s u (BlockOf hp n) ∧ ∀ k, k < n → u.wordAt (hp.toNat + k) = s.wordAt (base.toNat + k) := by
  have hheap : ∀ k, k < n → t.wordAt (hp.toNat + k) = s.wordAt (base.toNat + k) := fun k hk =>
    hcopied k hk (blocks_apart hapart hk (j := 0) hn)
  refine ⟨fun c hc => ?frame, fun k hk => ?heap⟩
  case frame =>
    by_cases hin : BlockOf base n c
    · obtain ⟨hlow, hhigh⟩ := hin
      obtain ⟨k, rfl⟩ := Nat.exists_eq_add_of_le hlow
      have hk : k < n := Nat.lt_of_add_lt_add_left hhigh
      rw [hback k hk, hheap k hk]
    · have hbase : ¬ OneWord base c := by
        rintro rfl
        exact hin ⟨Nat.le_refl _, by omega⟩
      rw [htu c hin, hst c (not_or.2 ⟨hc, hbase⟩)]
  case heap =>
    have hout : ¬ BlockOf base n (hp.toNat + k) := fun ⟨_, _⟩ => by omega
    rw [htu _ hout, hheap k hk]

/-- Settles O47: `stmh` leaves the words at the heap block and its last address on top; `ldmh 0 n` finds the block from that
address and, the blocks being apart, moves the words back to where they were. -/
theorem heapBlockRoundTrip : Obligations.HeapBlockRoundTrip := by
  intro n s t hn hstore hapart
  obtain ⟨hsize, hsrc, hdst, hptr, _⟩ := stmh_next hstore
  obtain ⟨t', hstore', _, hhp, hsp, htop, hcopied, hregs, hmem, hstatus, houtput, hfiles, hdrawn⟩ :=
    ((heapBlockStore n).2 s).2.1 hsize hsrc hdst hptr
  obtain rfl := exec_next_unique hstore hstore'
  have hmoves := ((heapBlockLoad 0#32 n).2 t').2.1 hsize (hsp ▸ hptr)
  rw [hsp, htop, block_ending_at_last, last_of_block] at hmoves
  obtain ⟨u, hload, _, husp, hback, huregs, humem, hustatus, huoutput, hufiles, hudrawn⟩ := hmoves.1 hdst hsrc
  have hlast := toNat_last_of_block hn hsrc
  obtain ⟨hframe, hheap⟩ := memory_of_copy_and_move_back hn (by omega) hcopied hmem hback humem
  refine ⟨u, hload, husp, (huregs .hp (by decide)).trans hhp, ⟨fun q hq => ?register, hframe, hustatus.trans hstatus,
    huoutput.trans houtput, hufiles.trans hfiles, hudrawn.trans hdrawn⟩, hheap⟩
  case register =>
    by_cases hqsp : q = .sp
    · rw [hqsp]
      exact husp
    · obtain ⟨hqpc, hqhp⟩ : q ≠ .pc ∧ q ≠ .hp := by simpa using hq
      rw [huregs q (by simp [hqpc, hqsp]), hregs q (by simp [hqpc, hqsp, hqhp])]

end Sys2Proof.Machine

/-!
PROOFS. The services of `trap` (spec/48_trap_annote.md): the choice of the service (R210, R221), the character and input
services (R212 to R214), and services 5 and 8 in every configuration (R215, R218, spec/60_exceptions.md R231).
-/

namespace Sys2Proof.Machine

-- The choice of the service.

theorem trapCode_of_ne_zero {a : Word} (h : a ≠ 0#32) : trapCode a = Config.trapCodeOther a := if_neg h

/-- Settles O55: an operand other than 0 is looked up in the open part of the map. -/
theorem trapGoesToTheServiceOfItsOperand : Obligations.TrapGoesToTheServiceOfItsOperand := by
  refine ⟨trapCode_zero, fun a s ha => ?_⟩
  cases hsvc : Config.trapCodeOther a with
  | some svc => exact exec_trap_of_trapCode ((trapCode_of_ne_zero ha).trans hsvc) s
  | none => exact exec_trap_of_no_trapCode ((trapCode_of_ne_zero ha).trans hsvc) s

-- Print character and the two inputs.

section
variable {s : State}

theorem pushInput_no_free (answer : Nat → Word) (hfree : ¬ ValidAddr (s.sp + 1#32)) :
    pushInput answer s = .error (.memoryRange .write (s.sp + 1#32)) := by
  rw [pushInput, pushWord_invalid _ _ hfree, bind_error]

/-- An input pushes the next answer and draws it; of the rest it leaves all as it was. -/
theorem pushInput_completes (answer : Nat → Word) (hfree : ValidAddr (s.sp + 1#32)) :
    ∃ t, pushInput answer s = .ok t ∧ t.pc = s.pc + 2#32 ∧ t.sp = s.sp + 1#32 ∧
      t.wordAt (s.sp + 1#32).toNat = answer s.inputsDrawn ∧
      SameRegistersBut s t [.pc, .sp] ∧ SameMemoryBut s t (OneWord (s.sp + 1#32)) ∧
      t.output = s.output ∧ t.openFiles = s.openFiles ∧ t.status = s.status ∧ t.inputsDrawn = s.inputsDrawn + 1 := by
  obtain ⟨hregs, hmem, _⟩ :=
    frame_insert_sp_pc s (s.sp + 1#32) (answer s.inputsDrawn) (s.sp + 1#32) (s.pc + 2#32)
  exact ⟨_, (pushInput_ok_iff answer s _).2 ⟨hfree, rfl⟩, rfl, rfl, wordAt_of_mem_insert rfl, hregs, hmem, rfl, rfl, rfl,
    rfl⟩

end

/-- Settles O56: a print of the top, and a push of the next answer of either kind. -/
theorem characterAndInputServices : Obligations.CharacterAndInputServices := by
  refine fun s => ⟨fun htop => ?prints, fun htop => ?noTop,
    fun hfree => ⟨pushInput_completes Config.inputInt hfree, pushInput_completes Config.inputChar hfree⟩,
    fun hfree => ⟨pushInput_no_free Config.inputInt hfree, pushInput_no_free Config.inputChar hfree⟩⟩
  case prints => exact (printWord_ok_iff _ s _).2 ⟨htop, rfl⟩
  case noTop => exact (finish_fault_iff _ _).1 (finish_printWord_no_top _ htop)

-- A character sequence (R215).

section
variable {s : State} (layout : Config.SequenceLayout)

theorem wordAt_of_insertMany_getElem? {t : State} {dst : Word} {ws : List Word}
    (h : t.mem = s.mem.insertMany dst.toNat ws) {k : Nat} {v : Word} (hk : ws[k]? = some v) :
    t.wordAt (dst.toNat + k) = v := by
  obtain ⟨hlt, _⟩ := List.getElem?_eq_some_iff.1 hk
  rw [wordAt_of_mem_insertMany h hlt, List.getD_eq_getElem?_getD, hk, Option.getD_some]

/-- With a layout, service 5 pushes the words of the sequence and draws it; of the rest it leaves all as it was. -/
theorem readSequence_completes {n : Nat} {ws : List Word} (hn : n = (Config.inputSequence s.inputsDrawn).length)
    (hws : ws = sequenceWords layout (Config.inputSequence s.inputsDrawn))
    (hfree : ValidBlock (s.sp + 1#32) (n + 1)) :
    ∃ t, readSequence (some layout) s = .ok t ∧ t.pc = s.pc + 2#32 ∧ t.sp = s.sp + BitVec.ofNat 32 (n + 1) ∧
      (∀ k v, ws[k]? = some v → t.wordAt ((s.sp + 1#32).toNat + k) = v) ∧
      SameRegistersBut s t [.pc, .sp] ∧ SameMemoryBut s t (BlockOf (s.sp + 1#32) (n + 1)) ∧
      t.output = s.output ∧ t.openFiles = s.openFiles ∧ t.status = s.status ∧
      t.inputsDrawn = s.inputsDrawn + 1 := by
  have hlength : ws.length = n + 1 := by rw [hws, sequenceWords_length, hn]
  obtain ⟨hregs, hmem, _⟩ :=
    frame_insertMany_sp_pc s (s.sp + 1#32) ws (s.sp + BitVec.ofNat 32 (n + 1)) (s.pc + 2#32)
  rw [hlength] at hmem
  subst hn hws
  exact ⟨_, (pushSequence_ok_iff layout s _).2 ⟨hfree, rfl⟩, rfl, rfl,
    fun k v hk => wordAt_of_insertMany_getElem? (s := s) rfl hk, hregs, hmem, rfl, rfl, rfl, rfl⟩

theorem readSequence_no_free {n : Nat} (hn : n = (Config.inputSequence s.inputsDrawn).length)
    (hfree : ¬ ValidBlock (s.sp + 1#32) (n + 1)) :
    ∃ x, ¬ ValidAddr x ∧ readSequence (some layout) s = .error (.memoryRange .write x) := by
  obtain ⟨x, hx, hwrite⟩ := writeWords_invalid (sequenceWords layout (Config.inputSequence s.inputsDrawn)) s
    (s.sp + 1#32) (by rwa [sequenceWords_length, ← hn])
  exact ⟨x, hx, by simp only [readSequence, pushSequence, hwrite, bind_error]⟩

end

-- A character from a file (R218).

/-- Where it is implemented, service 8 replaces the pointer of an open file by what was read. -/
theorem readFromFile_completes {s : State} (htop : ValidAddr s.sp) (hopen : s.wordAt s.sp.toNat ∈ s.openFiles) :
    ∃ t, readFromFile true s = .ok t ∧ t.pc = s.pc + 2#32 ∧ t.sp = s.sp ∧
      t.wordAt s.sp.toNat = Config.fileInput s.inputsDrawn ∧
      SameRegistersBut s t [.pc] ∧ SameMemoryBut s t (OneWord s.sp) ∧
      t.output = s.output ∧ t.openFiles = s.openFiles ∧ t.status = s.status ∧ t.inputsDrawn = s.inputsDrawn + 1 := by
  obtain ⟨hregs, hmem, _⟩ := frame_insert_pc s s.sp (Config.fileInput s.inputsDrawn) (s.pc + 2#32)
  exact ⟨_, (readFromFile_ok_iff true s _).2 ⟨⟨rfl, htop, hopen⟩, rfl⟩, rfl, rfl, wordAt_of_mem_insert rfl, hregs, hmem,
    rfl, rfl, rfl, rfl⟩

/-- Settles O57: each value of the two constants has its own case, and the machine's are the refusals. -/
theorem sequenceAndFileInputServices : Obligations.SequenceAndFileInputServices := by
  refine ⟨fun _ => ⟨rfl, rfl⟩, fun s => ⟨serve_readCharSequence s, rfl, fun layout n ws hn hws =>
    ⟨readSequence_completes layout hn hws, readSequence_no_free layout hn⟩, readFromFile_completes, fun hnot => ?refused,
    ?notImplemented⟩⟩
  case refused => exact readFromFile_refused true s fun ⟨_, htop⟩ => hnot htop
  case notImplemented => exact readFromFile_refused false s fun ⟨himplemented, _⟩ => Bool.noConfusion himplemented

end Sys2Proof.Machine

/-!
PROOFS. The assembler and the loader (spec/30_encoding.md R84, R85; spec/70_reset_and_hazards.md R260): the branch to a
label, and the loaded image as the code that is fetched.
-/

namespace Sys2Proof.Machine

-- The offset of a label (R84).

/-- The offset counts from the following instruction, so that adding it there gives the label's address. -/
theorem branchTarget_branchOffset {s : State} {p : Nat} (hpc : s.pc = BitVec.ofNat 32 p) (target : Nat) :
    branchTarget s (branchOffset p target) = BitVec.ofNat 32 target := by
  have hoffset : branchOffset p target = BitVec.ofNat 32 target - (BitVec.ofNat 32 p + 2#32) := by
    rw [branchOffset, wrap_sub, wrap, wrap, BitVec.ofInt_add, BitVec.ofInt_natCast, BitVec.ofInt_natCast]
    rfl
  rw [branchTarget, hoffset, hpc, add_sub_cancel]

section
variable {s t : State} {a : Word}

theorem brf_taken (h : exec (.brf a) s = .next t) (hzero : s.wordAt s.sp.toNat = 0#32) : t.pc = branchTarget s a := by
  obtain ⟨htop, _⟩ := finish_readWord_next h
  obtain rfl := Host.Outcome.next.inj ((exec_brf a htop).symm.trans h)
  rw [popTo_pc, if_pos hzero]

theorem brt_taken (h : exec (.brt a) s = .next t) (hnonzero : s.wordAt s.sp.toNat ≠ 0#32) :
    t.pc = branchTarget s a := by
  obtain ⟨htop, _⟩ := finish_readWord_next h
  obtain rfl := Host.Outcome.next.inj ((exec_brt a htop).symm.trans h)
  rw [popTo_pc, if_neg hnonzero]

end

/-- Settles O59: each of the four, taken, leaves PC at the target of its offset. -/
theorem branchesLandOnTheirLabels : Obligations.BranchesLandOnTheirLabels := by
  intro p target s t hpc htaken
  rw [← branchTarget_branchOffset hpc target]
  obtain hbra | hbsr | ⟨hbrf, hzero⟩ | ⟨hbrt, hnonzero⟩ := htaken
  · obtain rfl := Host.Outcome.next.inj hbra
    rfl
  · obtain ⟨_, rfl⟩ := bsr_next hbsr
    rfl
  · exact brf_taken hbrf hzero
  · exact brt_taken hbrt hnonzero

-- A loaded image (R85, R260).

theorem image_append_cons (before after : List Instr) (i : Instr) :
    image (before ++ i :: after) = image before ++ (encode i ++ image after) := by
  simp only [image, List.flatMap_append, List.flatMap_cons]

theorem lookup_imageMemory {words : List Word} {k : Nat} (hk : k < words.length) :
    Memory.lookup (imageMemory words) k = words[k]? := by
  have hin : 0 ≤ k ∧ k < 0 + words.length := by omega
  rw [imageMemory, lookup_insertMany, if_pos hin, Nat.sub_zero]

/-- In the memory of an image, the words that come after the first ones stand from their number on. -/
theorem codeAt_imageMemory {s : State} {before rest : List Word} (hmem : s.mem = imageMemory (before ++ rest))
    (hfits : (before ++ rest).length ≤ Config.memWords) (hpc : s.pc = BitVec.ofNat 32 before.length) : CodeAt s rest := by
  intro k v hk
  obtain ⟨hlt, _⟩ := List.getElem?_eq_some_iff.1 hk
  rw [List.length_append, Config.memWords] at hfits
  have hnum : s.pc.toNat = before.length := by
    rw [hpc, BitVec.toNat_ofNat]
    omega
  have hin : before.length + k < (before ++ rest).length := by
    rw [List.length_append]
    omega
  rw [hnum, hmem, lookup_imageMemory hin, List.getElem?_append_right (Nat.le_add_right _ _), Nat.add_sub_cancel_left]
  exact ⟨by rw [Config.memWords]; omega, hk⟩

theorem boot_eq_some {stackBase mpInit heapBase : Word} {words : List Word} {s : State}
    (h : boot stackBase mpInit heapBase words = some s) :
    words.length ≤ Config.memWords ∧
      s = { State.reset with sp := stackBase, mp := mpInit, hp := heapBase, mem := imageMemory words } := by
  by_cases hfits : fits stackBase heapBase words = true
  · rw [boot, if_pos hfits] at h
    simp only [fits, Bool.and_eq_true, decide_eq_true_eq] at hfits
    obtain ⟨⟨⟨hlength, _⟩, _⟩, _⟩ := hfits
    exact ⟨hlength, (Option.some.inj h).symm⟩
  · simp [boot, hfits] at h

/-- Settles O60: after the words of the instructions before it come those of the instruction, which the fetch decodes. -/
theorem loadedProgramIsFetched : Obligations.LoadedProgramIsFetched := by
  intro before after i stackBase mpInit heapBase s hboot hmeta
  rw [image_append_cons] at hboot
  obtain ⟨hfits, rfl⟩ := boot_eq_some hboot
  exact ⟨rfl, rfl, rfl, rfl, rfl,
    fetchInstr_of_decode (codeAt_imageMemory rfl hfits rfl) (decode_encode hmeta (image after))⟩

end Sys2Proof.Machine
